-- ==== Sys2Proof/Word.lean ====
section
/-! DEFINITION. The word types of the LS-8 core block (spec/00_scope.md R5, R6): 8-bit data, a 9-bit program
counter, eight register indices. -/

namespace Sys2Proof

/-- A register, a memory cell, an operand byte: 8 bits, always read as unsigned (R5, R6, R20, R40). -/
abbrev Byte := BitVec 8

/-- The program counter: 9 bits, since a step can leave 256 in it (R23). -/
abbrev PcWord := BitVec 9

/-- The index of a general register, 0 to 7 (R20). -/
abbrev RegIndex := Fin 8

/-- The index of the stack pointer: register 7 (R22). -/
abbrev spIndex : RegIndex := 7

end Sys2Proof
end

