-- ==== Sys2Proof/Config.lean ====
section
/-! DEFINITION. What an implementation fixes: the three parameters of spec/00_scope.md R5, as plain data, and the
model's one free value. The default values stand in Decode.lean and Machine/Params.lean. -/

namespace Sys2Proof

/-- `OPCODE_MAP`: the opcode byte of each of the 32 instructions, in the order of the table of R70. -/
structure OpcodeMap where
  hlt : Byte
  ldi : Byte
  ld : Byte
  st : Byte
  prn : Byte
  pra : Byte
  push : Byte
  pop : Byte
  call : Byte
  ret : Byte
  jmp : Byte
  jeq : Byte
  jne : Byte
  jgt : Byte
  jlt : Byte
  jge : Byte
  jle : Byte
  add : Byte
  sub : Byte
  mul : Byte
  div : Byte
  mod : Byte
  and : Byte
  or : Byte
  xor : Byte
  shl : Byte
  shr : Byte
  cmp : Byte
  inc : Byte
  dec : Byte
  not : Byte
  nop : Byte
  deriving DecidableEq, Repr

/-- `PRA_ADVANCE`, a parameter in {0, 2} (R5, R122): `stay` is 0 and `advance` is 2. -/
inductive PraAdvance where
  | stay
  | advance
  deriving DecidableEq, Repr

/-- The parameters a model of the block takes (R5). -/
structure Params where
  opcodeMap : OpcodeMap
  spReset : Byte
  praAdvance : PraAdvance
  deriving DecidableEq, Repr

/-- FREE VALUE (log 18): what the trace port shows in an observer's dump number `draw` for an address above 255
(R34, D24). The arguments are the dump's number and the address. No step reads it. -/
opaque Config.traceByte : Nat → Nat → Byte

end Sys2Proof
end

