-- ==== Sys2Proof/Syntax.lean ====
section
/-! DEFINITION. The instructions of the LS-8 as data: mnemonics, formats, operand roles and the one inductive `Instr`,
a constructor per row of spec/opcode_table.json (spec/30_encoding.md R60, R65, R70). An operand is the raw operand byte
of R8; whether it names a register is checked when the instruction runs (R21). -/

namespace Sys2Proof

/-- The 32 mnemonics of the table of R70, in its order. -/
inductive Mnemonic where
  | hlt | ldi | ld | st | prn | pra | push | pop
  | call | ret | jmp | jeq | jne | jgt | jlt | jge
  | jle | add | sub | mul | div | mod | and | or
  | xor | shl | shr | cmp | inc | dec | not | nop
  deriving DecidableEq, Repr

/-- An instruction with its operand bytes `a` and `b`. -/
inductive Instr where
  /-- HLT (R100): halt. -/
  | hlt
  /-- LDI (R110): x[a] <- b. -/
  | ldi (a b : Byte)
  /-- LD (R111): x[a] <- mem[x[b]]. -/
  | ld (a b : Byte)
  /-- ST (R112): mem[a] <- b, raw bytes. -/
  | st (a b : Byte)
  /-- PRN (R121): print x[a] in decimal. -/
  | prn (a : Byte)
  /-- PRA (R122): print x[a] as a character. -/
  | pra (a : Byte)
  /-- PUSH (R130): push x[a]. -/
  | push (a : Byte)
  /-- POP (R131): pop into x[a]. -/
  | pop (a : Byte)
  /-- CALL (R140): call the address in x[a]. -/
  | call (a : Byte)
  /-- RET (R141): return. -/
  | ret
  /-- JMP (R142): jump to x[a]. -/
  | jmp (a : Byte)
  /-- JEQ (R143): jump if equal. -/
  | jeq (a : Byte)
  /-- JNE (R144): jump if not equal. -/
  | jne (a : Byte)
  /-- JGT (R145): jump if greater. -/
  | jgt (a : Byte)
  /-- JLT (R146): jump if less. -/
  | jlt (a : Byte)
  /-- JGE (R147): jump if equal or greater. -/
  | jge (a : Byte)
  /-- JLE (R148): jump if equal or less. -/
  | jle (a : Byte)
  /-- ADD (R160): x[a] + x[b]. -/
  | add (a b : Byte)
  /-- SUB (R161): x[a] - x[b]. -/
  | sub (a b : Byte)
  /-- MUL (R162): low byte of x[a] * x[b]. -/
  | mul (a b : Byte)
  /-- DIV (R163): x[a] div x[b]. -/
  | div (a b : Byte)
  /-- MOD (R164): x[a] rem x[b]. -/
  | mod (a b : Byte)
  /-- AND (R165): bitwise and. -/
  | and (a b : Byte)
  /-- OR (R166): bitwise or. -/
  | or (a b : Byte)
  /-- XOR (R167): bitwise exclusive or. -/
  | xor (a b : Byte)
  /-- SHL (R168): shift left by x[b]. -/
  | shl (a b : Byte)
  /-- SHR (R169): logical shift right by x[b]. -/
  | shr (a b : Byte)
  /-- CMP (R170): compare, sets FL. -/
  | cmp (a b : Byte)
  /-- INC (R171): x[a] + 1, b ignored. -/
  | inc (a b : Byte)
  /-- DEC (R172): x[a] - 1, b ignored. -/
  | dec (a b : Byte)
  /-- NOT (R173): no effect (inherited defect), b ignored. -/
  | not (a b : Byte)
  /-- NOP (R101): no operation. -/
  | nop
  deriving DecidableEq, Repr

/-- The three formats of R60. -/
inductive Format where
  | f1
  | f2
  | f3
  deriving DecidableEq, Repr

/-- What the rule of an instruction does with a register it names (R65). -/
inductive RegUse where
  | read
  | written
  | readWritten
  deriving DecidableEq, Repr

/-- The role of an operand byte (R65): a register index, an immediate, an address, or a byte the instruction ignores. -/
inductive Role where
  | reg (use : RegUse)
  | imm8
  | addr8
  | ignored
  deriving DecidableEq, Repr

end Sys2Proof
end

