-- ==== Sys2Proof/WellFormed.lean ====
section
/-! DEFINITION. The table of spec/30_encoding.md R65 as functions, and well-formedness of an instruction: every operand
byte whose role is a register names one of the registers 0 to 7 (spec/10_state.md R21). An ill-formed instruction still
decodes and still runs; running it raises `OutOfBounds`. -/

namespace Sys2Proof

/-- The mnemonic of an instruction. -/
def Instr.mnemonic : Instr → Mnemonic
  | .hlt => .hlt
  | .ldi _ _ => .ldi
  | .ld _ _ => .ld
  | .st _ _ => .st
  | .prn _ => .prn
  | .pra _ => .pra
  | .push _ => .push
  | .pop _ => .pop
  | .call _ => .call
  | .ret => .ret
  | .jmp _ => .jmp
  | .jeq _ => .jeq
  | .jne _ => .jne
  | .jgt _ => .jgt
  | .jlt _ => .jlt
  | .jge _ => .jge
  | .jle _ => .jle
  | .add _ _ => .add
  | .sub _ _ => .sub
  | .mul _ _ => .mul
  | .div _ _ => .div
  | .mod _ _ => .mod
  | .and _ _ => .and
  | .or _ _ => .or
  | .xor _ _ => .xor
  | .shl _ _ => .shl
  | .shr _ _ => .shr
  | .cmp _ _ => .cmp
  | .inc _ _ => .inc
  | .dec _ _ => .dec
  | .not _ _ => .not
  | .nop => .nop

/-- The operand bytes of an instruction, in the order a, b. -/
def Instr.operands : Instr → List Byte
  | .hlt => []
  | .ldi a b => [a, b]
  | .ld a b => [a, b]
  | .st a b => [a, b]
  | .prn a => [a]
  | .pra a => [a]
  | .push a => [a]
  | .pop a => [a]
  | .call a => [a]
  | .ret => []
  | .jmp a => [a]
  | .jeq a => [a]
  | .jne a => [a]
  | .jgt a => [a]
  | .jlt a => [a]
  | .jge a => [a]
  | .jle a => [a]
  | .add a b => [a, b]
  | .sub a b => [a, b]
  | .mul a b => [a, b]
  | .div a b => [a, b]
  | .mod a b => [a, b]
  | .and a b => [a, b]
  | .or a b => [a, b]
  | .xor a b => [a, b]
  | .shl a b => [a, b]
  | .shr a b => [a, b]
  | .cmp a b => [a, b]
  | .inc a b => [a, b]
  | .dec a b => [a, b]
  | .not a b => [a, b]
  | .nop => []

/-- The roles of the operands a and b (R65). -/
def Mnemonic.roles : Mnemonic → List Role
  | .hlt | .ret | .nop => []
  | .ldi => [.reg .written, .imm8]
  | .ld => [.reg .written, .reg .read]
  | .st => [.addr8, .imm8]
  | .prn | .pra | .push | .call | .jmp | .jeq | .jne | .jgt | .jlt | .jge => [.reg .read]
  | .jle => [.reg .read]
  | .pop => [.reg .written]
  | .add | .sub | .mul | .div | .mod | .and | .or | .xor | .shl | .shr => [.reg .readWritten, .reg .read]
  | .cmp => [.reg .read, .reg .read]
  | .inc | .dec => [.reg .readWritten, .ignored]
  | .not => [.reg .read, .ignored]

/-- Whether a role is a register index. -/
def Role.isReg : Role → Bool
  | .reg _ => true
  | .imm8 | .addr8 | .ignored => false

/-- The operand bytes that R21 checks, a before b. -/
def Instr.regOperands (i : Instr) : List Byte :=
  ((i.mnemonic.roles.zip i.operands).filter (·.1.isReg)).map (·.2)

/-- Every register operand names a register (R21). -/
abbrev Instr.WellFormed (i : Instr) : Prop := ∀ r ∈ i.regOperands, r.toNat ≤ 7

end Sys2Proof
end

