-- ==== Sys2Proof/Decode.lean ====
section
/-! DEFINITION. Decoding and encoding under an `OPCODE_MAP` (spec/30_encoding.md R60, R64, R65, R70, R71), the default
map, and the two entry points of the host. Every definition is total. -/

namespace Sys2Proof

/-- The format column of R65. -/
def Mnemonic.format : Mnemonic → Format
  | .hlt | .ret | .nop => .f1
  | .prn | .pra | .push | .pop | .call | .jmp | .jeq | .jne | .jgt | .jlt => .f2
  | .jge | .jle => .f2
  | .ldi | .ld | .st | .add | .sub | .mul | .div | .mod | .and | .or => .f3
  | .xor | .shl | .shr | .cmp | .inc | .dec | .not => .f3

/-- The length in bytes of a format (R60). -/
def Format.width : Format → Nat
  | .f1 => 1
  | .f2 => 2
  | .f3 => 3

/-- The width column of R65: the table decides, never the bits of the opcode (R68, 90_conflicts.md C2). -/
def Mnemonic.width (m : Mnemonic) : Nat := m.format.width

/-- All mnemonics, in the order of R70. -/
def Mnemonic.all : List Mnemonic :=
  [.hlt, .ldi, .ld, .st, .prn, .pra, .push, .pop, .call, .ret, .jmp,
   .jeq, .jne, .jgt, .jlt, .jge, .jle, .add, .sub, .mul, .div, .mod,
   .and, .or, .xor, .shl, .shr, .cmp, .inc, .dec, .not, .nop]

/-- The opcode byte a map gives a mnemonic (R70). -/
def OpcodeMap.opcode (map : OpcodeMap) : Mnemonic → Byte
  | .hlt => map.hlt
  | .ldi => map.ldi
  | .ld => map.ld
  | .st => map.st
  | .prn => map.prn
  | .pra => map.pra
  | .push => map.push
  | .pop => map.pop
  | .call => map.call
  | .ret => map.ret
  | .jmp => map.jmp
  | .jeq => map.jeq
  | .jne => map.jne
  | .jgt => map.jgt
  | .jlt => map.jlt
  | .jge => map.jge
  | .jle => map.jle
  | .add => map.add
  | .sub => map.sub
  | .mul => map.mul
  | .div => map.div
  | .mod => map.mod
  | .and => map.and
  | .or => map.or
  | .xor => map.xor
  | .shl => map.shl
  | .shr => map.shr
  | .cmp => map.cmp
  | .inc => map.inc
  | .dec => map.dec
  | .not => map.not
  | .nop => map.nop

/-- The map is injective: no two mnemonics share an opcode byte (R70). -/
abbrev OpcodeMap.Injective (map : OpcodeMap) : Prop := (Mnemonic.all.map map.opcode).Nodup

/-- The default `OPCODE_MAP` of R70. PRESUMED (log 1): the spec marks the byte values as general knowledge (D1). -/
def OpcodeMap.default : OpcodeMap where
  hlt := 0x01
  ldi := 0x82
  ld := 0x83
  st := 0x84
  prn := 0x47
  pra := 0x48
  push := 0x45
  pop := 0x46
  call := 0x50
  ret := 0x11
  jmp := 0x54
  jeq := 0x55
  jne := 0x56
  jgt := 0x57
  jlt := 0x58
  jge := 0x5A
  jle := 0x59
  add := 0xA0
  sub := 0xA1
  mul := 0xA2
  div := 0xA3
  mod := 0xA4
  and := 0xA8
  or := 0xAA
  xor := 0xAB
  shl := 0xAC
  shr := 0xAD
  cmp := 0xA7
  inc := 0x65
  dec := 0x66
  not := 0x69
  nop := 0x00

/-- Decode's look-up: the mnemonic whose opcode byte is `op`, none for an unknown opcode (R64, R71). -/
def OpcodeMap.lookup (map : OpcodeMap) (op : Byte) : Option Mnemonic :=
  Mnemonic.all.find? fun m => map.opcode m == op

/-- The instruction of a mnemonic with the latched bytes `a` and `b`; a byte its format does not have is dropped
(R62, R63, R65). -/
def Mnemonic.build (a b : Byte) : Mnemonic → Instr
  | .hlt => .hlt
  | .ldi => .ldi a b
  | .ld => .ld a b
  | .st => .st a b
  | .prn => .prn a
  | .pra => .pra a
  | .push => .push a
  | .pop => .pop a
  | .call => .call a
  | .ret => .ret
  | .jmp => .jmp a
  | .jeq => .jeq a
  | .jne => .jne a
  | .jgt => .jgt a
  | .jlt => .jlt a
  | .jge => .jge a
  | .jle => .jle a
  | .add => .add a b
  | .sub => .sub a b
  | .mul => .mul a b
  | .div => .div a b
  | .mod => .mod a b
  | .and => .and a b
  | .or => .or a b
  | .xor => .xor a b
  | .shl => .shl a b
  | .shr => .shr a b
  | .cmp => .cmp a b
  | .inc => .inc a b
  | .dec => .dec a b
  | .not => .not a b
  | .nop => .nop

/-- Decode of the three prefetched bytes, as the step does it: none is an unknown opcode (R62, R64). -/
def OpcodeMap.decodeLatched (map : OpcodeMap) (op a b : Byte) : Option Instr :=
  (map.lookup op).map (Mnemonic.build a b)

/-- Why bytes are no instruction: there are none, the opcode is unknown (R71), or they end inside the instruction. -/
inductive DecodeError where
  | noBytes
  | unknownOpcode (op : Byte)
  | truncated (m : Mnemonic)
  deriving DecidableEq, Repr

/-- Decode any bytes: the instruction and the bytes after it, or the named reason why there is none. The length comes
from the opcode's table row and from nothing else (R68). -/
def OpcodeMap.decode (map : OpcodeMap) : List Byte → Except DecodeError (Instr × List Byte)
  | [] => .error .noBytes
  | op :: rest =>
    match map.lookup op with
    | none => .error (.unknownOpcode op)
    | some m =>
      match m.format, rest with
      | .f1, rest => .ok (m.build 0 0, rest)
      | .f2, a :: rest => .ok (m.build a 0, rest)
      | .f3, a :: b :: rest => .ok (m.build a b, rest)
      | .f2, [] | .f3, [] | .f3, [_] => .error (.truncated m)

/-- The bytes of an instruction: the opcode at the lowest address, then its operands (R45, R60). -/
def OpcodeMap.encode (map : OpcodeMap) (i : Instr) : List Byte :=
  map.opcode i.mnemonic :: i.operands

/-- The three bytes (the longest instruction) of an instruction that the host writes as one number: byte 0 is the least significant, and every
bit from `nbits` up is 0. -/
def wordBytes (nbits w : Nat) : List Byte :=
  let v := w % 2 ^ nbits
  [BitVec.ofNat 8 v, BitVec.ofNat 8 (v / 2 ^ 8), BitVec.ofNat 8 (v / 2 ^ 16)]

/-- The instruction that decode reads from a row's word under the default map. -/
def decodeTableWord (nbits w : Nat) : Option Instr :=
  match OpcodeMap.default.decode (wordBytes nbits w) with
  | .ok (i, _) => some i
  | .error _ => none

end Sys2Proof
end

