-- ==== Sys2Proof/Machine/Params.lean ====
section
/-! DEFINITION. The default parameters of spec/00_scope.md R5. -/

namespace Sys2Proof

/-- The default parameters of R5. DESIGN CHOICE of the spec (logs 1, 3, 4): `OPCODE_MAP` is the table of R70 (D1),
`SP_RESET` is 0xF4 (D3), `PRA_ADVANCE` is 0 (D9). -/
def Params.default : Params where
  opcodeMap := OpcodeMap.default
  spReset := 0xF4
  praAdvance := .stay

end Sys2Proof
end

