-- ==== Sys2Proof/Machine/State.lean ====
section
/-! DEFINITION. The state of the block (spec/10_state.md), all of it, as plain data, and the state after reset (R29). -/

namespace Sys2Proof.Machine

/-- The run state (R26). -/
inductive RunState where
  | running
  | halted
  deriving DecidableEq, Repr

/-- What an `OutOfBounds` error records (R200): a memory address above 255, or a register operand byte above 7. -/
inductive BoundsInfo where
  | memory (address : Nat)
  | register (operand : Byte)
  deriving DecidableEq, Repr

/-- The halt reason of the status port with the info of R200 (R27). -/
inductive HaltReason where
  /-- Still running (code 0). -/
  | none
  /-- HLT (code 1). -/
  | hlt
  /-- A fetch address above 255 or a register operand above 7 (code 2). -/
  | outOfBounds (info : BoundsInfo)
  /-- An opcode byte outside `OPCODE_MAP` (code 3). -/
  | unknownOpcode (op : Byte)
  /-- DIV with x[b] = 0; the register indices a and b (code 4). -/
  | divisionByZero (a b : Byte)
  /-- MOD with x[b] = 0; the register indices a and b (code 5). -/
  | moduloByZero (a b : Byte)
  /-- An ALU operation with no rule, unreachable (code 6, R175). -/
  | unsupportedOperation (op : Byte)
  /-- The refusal of R53 as the status port shows it (code 7); not a hardware halt, and no step writes it into State:
  `Refusal.selfModifyingCode` carries it (log 7). -/
  | selfModifyingCode
  deriving DecidableEq, Repr

/-- An output event (R120). -/
inductive OutEvent where
  /-- From PRN: shown as the decimal digits of `v` and a newline. -/
  | dec (v : Byte)
  /-- From PRA: shown as the character of code `v`. -/
  | char (v : Byte)
  deriving DecidableEq, Repr

/-- The 256-byte memory (R40) as address and byte pairs in the canonical form of `Memory.wf`: addresses strictly rising,
and no listed byte equal to the 0 that an unlisted address reads as (zero-filled at reset, R29). -/
structure Memory where
  cells : List Host.Cell
  deriving DecidableEq, Repr

/-- Everything the spec gives the machine. -/
structure State where
  /-- x[0] to x[7] (R20); x[7] is the stack pointer (R22). -/
  regs : Vector Byte 8
  /-- The program counter (R23). -/
  pc : PcWord
  /-- The flags register: E, G, L in bits 0, 1, 2 (R24). -/
  fl : Byte
  /-- The run state (R26). -/
  run : RunState
  /-- The halt reason (R27). -/
  halt : HaltReason
  /-- The latch IR: the opcode byte of the step (R28). -/
  ir : Byte
  /-- The latch A: the byte after it (R28). -/
  opA : Byte
  /-- The latch B: the byte after that (R28). -/
  opB : Byte
  /-- The memory (R40). -/
  mem : Memory
  /-- The output events sent, oldest first (R32, R120). -/
  out : List OutEvent
  /-- The set W of R53, addresses strictly rising: what ST, PUSH and CALL have written since reset. -/
  written : List Nat
  /-- The parameters of R5, fixed for the machine: no step writes them (log 2). -/
  params : Params
  deriving DecidableEq, Repr

/-- The block has no fault that stops it without a next state: every error it detects is a halt that State records
(R200, R205), so that no step raises a fault. The type is empty. -/
inductive Fault where
  deriving DecidableEq, Repr

/-- Why a step has no meaning. -/
inductive Refusal where
  /-- An arm of `exec` with no meaning yet; no arm answers it now. Safe. -/
  | notModelled (mnemonic : String)
  /-- Raised by the step when the instruction it decoded uses a byte that ST, PUSH or CALL has written since reset
  (R53, R61): the document calls that undefined. Safe: the hardware runs the written byte. -/
  | selfModifyingCode
  deriving DecidableEq, Repr

/-- The halt reason that a refusal shows on the status port (R27, code 7). -/
def Refusal.haltReason : Refusal → Option HaltReason
  | .notModelled _ => Option.none
  | .selfModifyingCode => some .selfModifyingCode

/-- The outcome of one step. -/
abbrev Result := Host.Outcome State Fault Refusal

/-- The state after reset with given parameters, before the loader writes an image (R29, R230 steps 1 and 2). The latches
are not architectural there: DESIGN CHOICE 0 (log 9). -/
def State.resetWith (params : Params) : State where
  regs := #v[0, 0, 0, 0, 0, 0, 0, params.spReset]
  pc := 0
  fl := 0
  run := .running
  halt := .none
  ir := 0
  opA := 0
  opB := 0
  mem := ⟨[]⟩
  out := []
  written := []
  params := params

/-- The state after reset with the default parameters of R5 and no program loaded (log 20). -/
def State.reset : State := State.resetWith Params.default

end Sys2Proof.Machine
end

