-- ==== Sys2Proof/Machine/Ops.lean ====
section
/-! DEFINITION. The named operations over memory, registers, the program counter and the output port
(spec/20_memory.md, spec/10_state.md), and raising an error (spec/60_exceptions.md R205). -/

namespace Sys2Proof.Machine

/-! ## Memory -/

/-- What a cell nothing has written holds: 0, since memory is zero-filled at reset (R29, R230). -/
def Memory.unlisted : Byte := 0

/-- The byte at an address of the list. -/
def cellAt : List Host.Cell → Nat → Byte
  | [], _ => Memory.unlisted
  | (k, v) :: rest, address => if k = address then v else cellAt rest address

/-- Put a byte at an address, keeping the canonical form. -/
def setCell : List Host.Cell → Nat → Byte → List Host.Cell
  | [], address, v => if v = Memory.unlisted then [] else [(address, v)]
  | (k, w) :: rest, address, v =>
    if address < k then
      if v = Memory.unlisted then (k, w) :: rest else (address, v) :: (k, w) :: rest
    else if address = k then
      if v = Memory.unlisted then rest else (address, v) :: rest
    else (k, w) :: setCell rest address v

/-- The canonical form: addresses strictly rising and in 0 to 255, and no byte listed that an unlisted address reads. -/
abbrev Memory.wf (m : Memory) : Prop :=
  m.cells.Pairwise (·.1 < ·.1) ∧ ∀ c ∈ m.cells, c.1 < 256 ∧ c.2 ≠ Memory.unlisted

/-- `MemRead(address, 1)`: none where it raises `OutOfBounds` (R42). -/
def Memory.read (m : Memory) (address : Nat) : Option Byte :=
  if 255 < address then none else some (cellAt m.cells address)

/-- `MemWrite(address, 1, v)`: the low 8 bits of v; none where it raises `OutOfBounds` (R43). -/
def Memory.write (m : Memory) (address v : Nat) : Option Memory :=
  if 255 < address then none else some ⟨setCell m.cells address (BitVec.ofNat 8 v)⟩

/-! ## The set W of R53 -/

/-- Add an address to a strictly rising list of addresses. -/
def insertAddress (address : Nat) : List Nat → List Nat
  | [] => [address]
  | k :: rest =>
    if address < k then address :: k :: rest
    else if address = k then k :: rest
    else k :: insertAddress address rest

/-- The form of W: addresses of memory, strictly rising. -/
abbrev WrittenWf (w : List Nat) : Prop := w.Pairwise (· < ·) ∧ ∀ a ∈ w, a < 256

/-! ## Registers and program counter -/

/-- `x[i]` (R7, R20). -/
def State.reg (s : State) (i : RegIndex) : Byte := s.regs[i.val]

/-- `x[i] <- v` (R7, R20): no register is hardwired. -/
def State.setReg (s : State) (i : RegIndex) (v : Byte) : State := { s with regs := s.regs.set i.val v }

/-- The default advance: `pc <- p + n` (R66). -/
def State.advance (s : State) (n : Nat) : State := { s with pc := s.pc + BitVec.ofNat 9 n }

/-- Replacement of the pc by an 8-bit target (R66, R149). -/
def State.jump (s : State) (target : Byte) : State := { s with pc := target.setWidth 9 }

/-- `FL <- v` (R170). -/
def State.setFl (s : State) (v : Byte) : State := { s with fl := v }

/-! ## Output port -/

/-- `emit(e)`: append an event (R120). -/
def State.emit (s : State) (e : OutEvent) : State := { s with out := s.out ++ [e] }

/-! ## Halting and raising an error

There is no trap entry and no trap return (R207, R208): an error halts the block, and only reset leaves `Halted`. -/

/-- Halt with a reason. The pc and everything else stay (R100 with D10, R205 with D8; logs 5 and 6). -/
def State.stop (s : State) (reason : HaltReason) : State := { s with run := .halted, halt := reason }

/-- `raise E(info)`: the step ends, the run state is `Halted` and the halt reason E (R205). -/
def raise (reason : HaltReason) (s : State) : Result := .next (s.stop reason)

/-! ## Accesses that can raise -/

/-- A byte read that goes on with the byte, or raises `OutOfBounds(memory, address)` (R42). -/
def readByte (address : Nat) (s : State) (k : Byte → Result) : Result :=
  match s.mem.read address with
  | none => raise (.outOfBounds (.memory address)) s
  | some v => k v

/-- A byte write by ST, PUSH or CALL, which also puts the address into W (R43, R53). -/
def storeByte (address v : Nat) (s : State) (k : State → Result) : Result :=
  match s.mem.write address v with
  | none => raise (.outOfBounds (.memory address)) s
  | some m => k { s with mem := m, written := insertAddress address s.written }

end Sys2Proof.Machine
end

