-- ==== Sys2Proof/Machine/Flags.lean ====
section
/-! DEFINITION. The flags register (spec/10_state.md R24): its bits, the value CMP writes (spec/46_alu.md R170), and the six
conditions of the conditional jumps (spec/45_control.md R143 to R148). -/

namespace Sys2Proof.Machine

/-- `FL.E`, bit 0. -/
def State.flE (s : State) : Bool := s.fl.getLsbD 0

/-- `FL.G`, bit 1. -/
def State.flG (s : State) : Bool := s.fl.getLsbD 1

/-- `FL.L`, bit 2. -/
def State.flL (s : State) : Bool := s.fl.getLsbD 2

/-- The FL that CMP writes: exactly one of E, G, L, by the unsigned order (R170). -/
def compareFlags (x y : Byte) : Byte :=
  if x.toNat = y.toNat then 0b00000001
  else if x.toNat > y.toNat then 0b00000010
  else 0b00000100

/-- JEQ's condition: E = 1 (R143). -/
def State.condEq (s : State) : Bool := s.flE

/-- JNE's condition: E = 0 (R144). -/
def State.condNe (s : State) : Bool := !s.flE

/-- JGT's condition: G = 1 (R145). -/
def State.condGt (s : State) : Bool := s.flG

/-- JLT's condition: L = 1 (R146). -/
def State.condLt (s : State) : Bool := s.flL

/-- JGE's condition: E = 1 or G = 1 (R147). -/
def State.condGe (s : State) : Bool := s.flE || s.flG

/-- JLE's condition: E = 1 or L = 1 (R148). -/
def State.condLe (s : State) : Bool := s.flE || s.flL

end Sys2Proof.Machine
end

