-- ==== Sys2Proof/Machine/Operands.lean ====
section
/-! DEFINITION. Register operands (spec/10_state.md R21, spec/30_encoding.md R67). An immediate or address operand is used
as it stands and needs no function. -/

namespace Sys2Proof.Machine

/-- The register an operand byte names: the whole byte, only 0 to 7 (R21, R67). -/
def regIndex (operand : Byte) : Option RegIndex :=
  if h : operand.toNat < 8 then some ⟨operand.toNat, h⟩ else none

/-- `RegIdx(operand)`: go on with the register, or raise `OutOfBounds(register, operand)` (R21). -/
def withReg (operand : Byte) (s : State) (k : RegIndex → Result) : Result :=
  match regIndex operand with
  | none => raise (.outOfBounds (.register operand)) s
  | some i => k i

/-- `RegIdx(a); RegIdx(b)`: a before b (R21, R206). -/
def withRegs (a b : Byte) (s : State) (k : RegIndex → RegIndex → Result) : Result :=
  withReg a s fun i => withReg b s fun j => k i j

end Sys2Proof.Machine
end

