-- ==== Sys2Proof/Machine/Alu.lean ====
section
/-! DEFINITION. The ALU and its fourteen instructions (spec/46_alu.md). Operands are converted to numbers, computed exactly
and reduced modulo 256 (R176). -/

namespace Sys2Proof.Machine

/-- What the ALU does with an operation (R174): write x[a], write FL, write nothing, or raise an error. -/
inductive AluEffect where
  | writeReg (v : Byte)
  | writeFlags (v : Byte)
  | nothing
  | divisionByZero
  | moduloByZero
  /-- An operation name the ALU does not implement (R175). -/
  | unsupported
  deriving DecidableEq, Repr

/-- The binary operations, by operation name (R160 to R170). Any other name is unsupported (R175). -/
def aluBinary (op : Mnemonic) (x y : Byte) : AluEffect :=
  match op with
  | .add => .writeReg (BitVec.ofNat 8 (x.toNat + y.toNat))
  | .sub => .writeReg (BitVec.ofInt 8 ((x.toNat : Int) - (y.toNat : Int)))
  | .mul => .writeReg (BitVec.ofNat 8 (x.toNat * y.toNat))
  | .div => if y.toNat = 0 then .divisionByZero else .writeReg (BitVec.ofNat 8 (x.toNat / y.toNat))
  | .mod => if y.toNat = 0 then .moduloByZero else .writeReg (BitVec.ofNat 8 (x.toNat % y.toNat))
  | .and => .writeReg (x &&& y)
  | .or => .writeReg (x ||| y)
  | .xor => .writeReg (x ^^^ y)
  | .shl => .writeReg (BitVec.ofNat 8 (x.toNat * 2 ^ y.toNat))
  | .shr => .writeReg (BitVec.ofNat 8 (x.toNat / 2 ^ y.toNat))
  | .cmp => .writeFlags (compareFlags x y)
  | .hlt | .ldi | .ld | .st | .prn | .pra | .push | .pop => .unsupported
  | .call | .ret | .jmp | .jeq | .jne | .jgt | .jlt | .jge | .jle => .unsupported
  | .inc | .dec | .not | .nop => .unsupported

/-- The unary operations, by operation name (R171 to R173). NOT computes a comparison and discards it: it is not a
complement (R173). Any other name is unsupported (R175). -/
def aluUnary (op : Mnemonic) (x : Byte) : AluEffect :=
  match op with
  | .inc => .writeReg (BitVec.ofNat 8 (x.toNat + 1))
  | .dec => .writeReg (BitVec.ofInt 8 ((x.toNat : Int) - 1))
  | .not => .nothing
  | .hlt | .ldi | .ld | .st | .prn | .pra | .push | .pop => .unsupported
  | .call | .ret | .jmp | .jeq | .jne | .jgt | .jlt | .jge | .jle => .unsupported
  | .add | .sub | .mul | .div | .mod | .and | .or | .xor | .shl | .shr | .cmp | .nop => .unsupported

/-- Carry out an effect for register `i`, then pc <- p + 3. The errors record the operand bytes, or the opcode byte of the
operation (R200). -/
def applyAlu (op : Mnemonic) (a b : Byte) (i : RegIndex) (s : State) : AluEffect → Result
  | .writeReg v => .next ((s.setReg i v).advance 3)
  | .writeFlags v => .next ((s.setFl v).advance 3)
  | .nothing => .next (s.advance 3)
  | .divisionByZero => raise (.divisionByZero a b) s
  | .moduloByZero => raise (.moduloByZero a b) s
  | .unsupported => raise (.unsupportedOperation (s.params.opcodeMap.opcode op)) s

/-- A binary ALU instruction: check a and b, read both registers, then act (R174). -/
def execBinary (op : Mnemonic) (a b : Byte) (s : State) : Result :=
  withRegs a b s fun i j => applyAlu op a b i s (aluBinary op (s.reg i) (s.reg j))

/-- A unary ALU instruction: check a only (R72); b is ignored. -/
def execUnary (op : Mnemonic) (a b : Byte) (s : State) : Result :=
  withReg a s fun i => applyAlu op a b i s (aluUnary op (s.reg i))

/-- R160 ADD. -/
def execAdd (a b : Byte) (s : State) : Result := execBinary .add a b s

/-- R161 SUB. -/
def execSub (a b : Byte) (s : State) : Result := execBinary .sub a b s

/-- R162 MUL. -/
def execMul (a b : Byte) (s : State) : Result := execBinary .mul a b s

/-- R163 DIV. -/
def execDiv (a b : Byte) (s : State) : Result := execBinary .div a b s

/-- R164 MOD. -/
def execMod (a b : Byte) (s : State) : Result := execBinary .mod a b s

/-- R165 AND. -/
def execAnd (a b : Byte) (s : State) : Result := execBinary .and a b s

/-- R166 OR. -/
def execOr (a b : Byte) (s : State) : Result := execBinary .or a b s

/-- R167 XOR. -/
def execXor (a b : Byte) (s : State) : Result := execBinary .xor a b s

/-- R168 SHL: the full count 0 to 255 (D6, log 13). -/
def execShl (a b : Byte) (s : State) : Result := execBinary .shl a b s

/-- R169 SHR: logical, the full count 0 to 255 (D6, log 13). -/
def execShr (a b : Byte) (s : State) : Result := execBinary .shr a b s

/-- R170 CMP. -/
def execCmp (a b : Byte) (s : State) : Result := execBinary .cmp a b s

/-- R171 INC. -/
def execInc (a b : Byte) (s : State) : Result := execUnary .inc a b s

/-- R172 DEC. -/
def execDec (a b : Byte) (s : State) : Result := execUnary .dec a b s

/-- R173 NOT. -/
def execNot (a b : Byte) (s : State) : Result := execUnary .not a b s

end Sys2Proof.Machine
end

