-- ==== Sys2Proof/Machine/Stack.lean ====
section
/-! DEFINITION. The stack through x[7], and PUSH and POP (spec/44_stack.md). SP arithmetic is modulo 256 (R22, D4, log 11);
statements run in the order the rules write them (D26, log 23). -/

namespace Sys2Proof.Machine

/-- x[7] <- (x[7] - 1) mod 256. -/
def State.decSp (s : State) : State := s.setReg spIndex (s.reg spIndex - 1)

/-- x[7] <- (x[7] + 1) mod 256. -/
def State.incSp (s : State) : State := s.setReg spIndex (s.reg spIndex + 1)

/-- Decrement SP, then store the byte that `v` gives in the state after the decrement at the new SP. -/
def pushByte (v : State → Nat) (s : State) (k : State → Result) : Result :=
  storeByte (s.decSp.reg spIndex).toNat (v s.decSp) s.decSp k

/-- R130 PUSH: the register is read after the decrement. -/
def execPush (a : Byte) (s : State) : Result :=
  withReg a s fun i => pushByte (fun t => (t.reg i).toNat) s fun t => .next (t.advance 2)

/-- R131 POP: the increment is applied after the write to x[a]. -/
def execPop (a : Byte) (s : State) : Result :=
  withReg a s fun i =>
    readByte (s.reg spIndex).toNat s fun v => .next ((s.setReg i v).incSp.advance 2)

end Sys2Proof.Machine
end

