-- ==== Sys2Proof/Machine/Control.lean ====
section
/-! DEFINITION. CALL, RET, JMP and the six conditional jumps (spec/45_control.md). -/

namespace Sys2Proof.Machine

/-- R140 CALL: push p + 2, then pc <- x[a], the register read after the decrement of x[7]. -/
def execCall (a : Byte) (s : State) : Result :=
  withReg a s fun i => pushByte (fun t => t.pc.toNat + 2) s fun t => .next (t.jump (t.reg i))

/-- R141 RET: read the byte at x[7], increment x[7], jump to the byte. -/
def execRet (s : State) : Result :=
  readByte (s.reg spIndex).toNat s fun t => .next (s.incSp.jump t)

/-- R142 JMP. -/
def execJmp (a : Byte) (s : State) : Result :=
  withReg a s fun i => .next (s.jump (s.reg i))

/-- The shape of R143 to R148: the register is checked, taken or not; then pc <- x[a] or pc <- p + 2. -/
def jumpIf (condition : Bool) (a : Byte) (s : State) : Result :=
  withReg a s fun i => .next (if condition then s.jump (s.reg i) else s.advance 2)

/-- R143 JEQ. -/
def execJeq (a : Byte) (s : State) : Result := jumpIf s.condEq a s

/-- R144 JNE. -/
def execJne (a : Byte) (s : State) : Result := jumpIf s.condNe a s

/-- R145 JGT. -/
def execJgt (a : Byte) (s : State) : Result := jumpIf s.condGt a s

/-- R146 JLT. -/
def execJlt (a : Byte) (s : State) : Result := jumpIf s.condLt a s

/-- R147 JGE. -/
def execJge (a : Byte) (s : State) : Result := jumpIf s.condGe a s

/-- R148 JLE. -/
def execJle (a : Byte) (s : State) : Result := jumpIf s.condLe a s

end Sys2Proof.Machine
end

