-- ==== Sys2Proof/Machine/LoadStore.lean ====
section
/-! DEFINITION. LDI, LD and ST (spec/42_load_store.md). -/

namespace Sys2Proof.Machine

/-- R110 LDI: x[a] <- b. -/
def execLdi (a b : Byte) (s : State) : Result :=
  withReg a s fun i => .next ((s.setReg i b).advance 3)

/-- R111 LD: x[a] <- MemRead(x[b], 1). -/
def execLd (a b : Byte) (s : State) : Result :=
  withRegs a b s fun i j =>
    readByte (s.reg j).toNat s fun v => .next ((s.setReg i v).advance 3)

/-- R112 ST: MemWrite(a, 1, b), both raw operand bytes; no register is checked or read. -/
def execSt (a b : Byte) (s : State) : Result :=
  storeByte a.toNat b.toNat s fun t => .next (t.advance 3)

end Sys2Proof.Machine
end

