-- ==== Sys2Proof/Machine/Output.lean ====
section
/-! DEFINITION. PRN and PRA (spec/43_output.md). -/

namespace Sys2Proof.Machine

/-- R121 PRN: emit(OutDec(x[a])). -/
def execPrn (a : Byte) (s : State) : Result :=
  withReg a s fun i => .next ((s.emit (.dec (s.reg i))).advance 2)

/-- The bytes PRA adds to the pc (R5). -/
def praAdvanceBytes : PraAdvance → Nat
  | .stay => 0
  | .advance => 2

/-- R122 PRA: emit(OutChar(x[a])), then pc <- p + PRA_ADVANCE. -/
def execPra (a : Byte) (s : State) : Result :=
  withReg a s fun i => .next ((s.emit (.char (s.reg i))).advance (praAdvanceBytes s.params.praAdvance))

end Sys2Proof.Machine
end

