-- ==== Sys2Proof/Machine/System.lean ====
section
/-! DEFINITION. HLT and NOP (spec/41_system.md). -/

namespace Sys2Proof.Machine

/-- R100 HLT: run state `Halted`, halt reason `Hlt`; the pc is left at p (D10, log 6). -/
def execHlt (s : State) : Result := .next (s.stop .hlt)

/-- R101 NOP. -/
def execNop (s : State) : Result := .next (s.advance 1)

end Sys2Proof.Machine
end

