-- ==== Sys2Proof/Machine/Fetch.lean ====
section
/-! DEFINITION. Fetch, decode, the refusal of a written byte, and execution: the step while `Running`
(spec/30_encoding.md R61 to R64, spec/20_memory.md R53). -/

namespace Sys2Proof.Machine

/-- The addresses of the `width` bytes from `p` on. -/
def usedAddresses (p width : Nat) : List Nat := (List.range width).map (p + ·)

/-- Whether any of the `width` bytes from `p` on is in W (R53). -/
def usesWritten (s : State) (p width : Nat) : Bool := (usedAddresses p width).any (s.written.contains ·)

/-- Load IR, A and B from pc, pc + 1 and pc + 2, in that order; the first address above 255 raises `OutOfBounds`
(R62, R206). -/
def fetch (s : State) (k : State → Result) : Result :=
  let p := s.pc.toNat
  readByte p s fun op =>
    let s := { s with ir := op }
    readByte (p + 1) s fun a =>
      let s := { s with opA := a }
      readByte (p + 2) s fun b => k { s with opB := b }

/-- Decode the latched bytes, refuse a written byte, raise `UnknownOpcode`, or execute (R61, R63, R64, R71, R206). An
unknown opcode uses only the byte at pc (R53). -/
def issue (s : State) : Result :=
  match s.params.opcodeMap.decodeLatched s.ir s.opA s.opB with
  | none =>
    if usesWritten s s.pc.toNat 1 then .refused .selfModifyingCode
    else raise (.unknownOpcode s.ir) s
  | some i =>
    if usesWritten s s.pc.toNat i.mnemonic.width then .refused .selfModifyingCode
    else exec i s

/-- One step of a running block (R61). -/
def stepRunning (s : State) : Result := fetch s issue

/-- Put bytes at consecutive addresses from `p` on; an address above 255 is left out. -/
def Memory.load (m : Memory) (p : Nat) : List Byte → Memory
  | [] => m
  | v :: rest => ((m.write p v.toNat).getD m).load (p + 1) rest

/-- The state whose next step fetches the instruction of a table row's word (log 21): its three bytes stand at the pc; the
block is running; the pc is 0 where no fetch is possible; the bytes are not in W; the opcode map is the default. -/
def placeInstruction (s : State) (nbits w : Nat) : State :=
  let pc : PcWord := if 253 < s.pc.toNat then 0 else s.pc
  { s with
    pc := pc
    run := .running
    halt := .none
    mem := s.mem.load pc.toNat (wordBytes nbits w)
    written := s.written.filter (!(usedAddresses pc.toNat 3).contains ·)
    params := { s.params with opcodeMap := OpcodeMap.default } }

end Sys2Proof.Machine
end

