-- ==== Sys2Proof/Machine/Step.lean ====
section
/-! DEFINITION. The step (spec/30_encoding.md R61) and the host's entry for placing an instruction. -/

namespace Sys2Proof.Machine

/-- One step. A halted block does nothing: no state changes (R26, R31, R61; log 29). -/
def step (s : State) : Host.Outcome State Fault Refusal :=
  match s.run with
  | .halted => .next s
  | .running => stepRunning s

/-- `s` with the instruction of a table row's word where the next step fetches (log 21). -/
def State.withFetchWord (s : State) (nbits w : Nat) : State := placeInstruction s nbits w

end Sys2Proof.Machine
end

