-- ==== Sys2Proof/Machine/Assembler.lean ====
section
/-! DEFINITION. The assembler's lines (spec/00_scope.md R9, spec/30_encoding.md R73). -/

namespace Sys2Proof.Machine

/-- An operand as written: a register `R0` to `R7`, or a number 0 to 255 (R9). -/
inductive AsmOperand where
  | reg (i : RegIndex)
  | num (v : Byte)
  deriving DecidableEq, Repr

/-- A line: a mnemonic and its operands in the order a, b (R73). -/
structure AsmLine where
  mnemonic : Mnemonic
  operands : List AsmOperand
  deriving DecidableEq, Repr

/-- The byte of an operand in a role; none where the operand is of the wrong kind (R73). -/
def AsmOperand.byte : Role → AsmOperand → Option Byte
  | .reg _, .reg i => some (BitVec.ofNat 8 i.val)
  | .imm8, .num v => some v
  | .addr8, .num v => some v
  | .reg _, .num _ => none
  | .imm8, .reg _ => none
  | .addr8, .reg _ => none
  | .ignored, _ => none

/-- The operand bytes of a line; an ignored byte is not written and assembles to 0 (R73, D25, log 27). -/
def assembleOperands : List Role → List AsmOperand → Option (List Byte)
  | [], [] => some []
  | [], _ :: _ => none
  | .ignored :: roles, operands => (assembleOperands roles operands).map (0 :: ·)
  | _ :: _, [] => none
  | role :: roles, o :: operands =>
    match o.byte role, assembleOperands roles operands with
    | some v, some rest => some (v :: rest)
    | _, _ => none

/-- The bytes of a line; none where its operands do not fit the mnemonic (R73). -/
def AsmLine.assemble (map : OpcodeMap) (l : AsmLine) : Option (List Byte) :=
  (assembleOperands l.mnemonic.roles l.operands).map (map.opcode l.mnemonic :: ·)

/-- The mnemonic as written (R70). -/
def mnemonicText : Mnemonic → String
  | .hlt => "HLT"
  | .ldi => "LDI"
  | .ld => "LD"
  | .st => "ST"
  | .prn => "PRN"
  | .pra => "PRA"
  | .push => "PUSH"
  | .pop => "POP"
  | .call => "CALL"
  | .ret => "RET"
  | .jmp => "JMP"
  | .jeq => "JEQ"
  | .jne => "JNE"
  | .jgt => "JGT"
  | .jlt => "JLT"
  | .jge => "JGE"
  | .jle => "JLE"
  | .add => "ADD"
  | .sub => "SUB"
  | .mul => "MUL"
  | .div => "DIV"
  | .mod => "MOD"
  | .and => "AND"
  | .or => "OR"
  | .xor => "XOR"
  | .shl => "SHL"
  | .shr => "SHR"
  | .cmp => "CMP"
  | .inc => "INC"
  | .dec => "DEC"
  | .not => "NOT"
  | .nop => "NOP"

/-- An operand as written (R9). -/
def AsmOperand.text : AsmOperand → String
  | .reg i => "R" ++ toString i.val
  | .num v => toString v.toNat

/-- A line as written: the mnemonic, then the operands separated by a comma (R9). -/
def AsmLine.text (l : AsmLine) : String :=
  match l.operands with
  | [] => mnemonicText l.mnemonic
  | os => mnemonicText l.mnemonic ++ " " ++ ",".intercalate (os.map AsmOperand.text)

end Sys2Proof.Machine
end

