-- ==== Sys2Proof/Machine/Boot.lean ====
section
/-! DEFINITION. The reset sequence with a program image (spec/70_reset_and_hazards.md R230, R234). -/

namespace Sys2Proof.Machine

/-- The whole reset sequence: zeroed memory, reset registers, then the loader's image at consecutive addresses from 0. An
image longer than 256 bytes is the loader's error and the block never starts: none (R234, D13; log 20). W stays empty
(R230). -/
def State.boot (params : Params) (image : List Byte) : Option State :=
  if image.length ≤ 256 then
    some { State.resetWith params with mem := (State.resetWith params).mem.load 0 image }
  else none

end Sys2Proof.Machine
end

