-- ==== Sys2Proof/Machine/Ports.lean ====
section
/-! DEFINITION. What the status, trace and output ports show (spec/10_state.md R32 to R35, spec/43_output.md R120). These are
views: no step reads them. -/

namespace Sys2Proof.Machine

/-- The numeric codes of the status port (R27; D11, log 16). -/
def HaltReason.code : HaltReason → Nat
  | .none => 0
  | .hlt => 1
  | .outOfBounds _ => 2
  | .unknownOpcode _ => 3
  | .divisionByZero _ _ => 4
  | .moduloByZero _ _ => 5
  | .unsupportedOperation _ => 6
  | .selfModifyingCode => 7

/-- What the status port shows (R33): the run state, and the halt reason with its info and code. -/
structure Status where
  run : RunState
  reason : HaltReason
  code : Nat
  deriving DecidableEq, Repr

/-- The status port of a state (R33). -/
def State.status (s : State) : Status := { run := s.run, reason := s.halt, code := s.halt.code }

/-- The halt reason reported after a step from `s` with outcome `o`: the next state's, or the refusal's (R27, R53). -/
def reportedReason (o : Result) : Option HaltReason :=
  match o with
  | .next t => some t.halt
  | .fault r => nomatch r
  | .refused r => r.haltReason

/-- What the trace port shows between steps (R34). -/
structure Trace where
  pc : PcWord
  byte0 : Byte
  byte1 : Byte
  byte2 : Byte
  regs : Vector Byte 8
  deriving DecidableEq, Repr

/-- A byte of dump number `draw`: the memory byte, not a latch (R35), or a free value above address 255 (D24, log 18). -/
def State.traceByte (s : State) (draw address : Nat) : Byte :=
  (s.mem.read address).getD (Config.traceByte draw address)

/-- The trace port's dump number `draw` (R34). -/
def State.trace (s : State) (draw : Nat) : Trace where
  pc := s.pc
  byte0 := s.traceByte draw s.pc.toNat
  byte1 := s.traceByte draw (s.pc.toNat + 1)
  byte2 := s.traceByte draw (s.pc.toNat + 2)
  regs := s.regs

/-- An item on the console (R120). How a character code is rendered is the console's (D19, log 17). -/
inductive ConsoleItem where
  | digit (d : Nat)
  | newline
  | character (code : Byte)
  deriving DecidableEq, Repr

/-- The decimal digits of a byte with no leading zeros, `0` for zero (R120). -/
def decimalDigits (v : Byte) : List Nat :=
  let n := v.toNat
  if n < 10 then [n]
  else if n < 100 then [n / 10, n % 10]
  else [n / 100, n / 10 % 10, n % 10]

/-- What the console shows for an event (R120). -/
def OutEvent.console : OutEvent → List ConsoleItem
  | .dec v => (decimalDigits v).map .digit ++ [.newline]
  | .char v => [.character v]

/-- What the console shows for the events sent so far, in order. -/
def State.console (s : State) : List ConsoleItem := s.out.flatMap OutEvent.console

end Sys2Proof.Machine
end

