-- ==== Sys2Proof/Safety.lean ====
section
/-! DEFINITION. The terms claims use: the invariant of every run, what a step leaves unchanged, and raising an error. -/

namespace Sys2Proof.Machine

/-- What holds in every state of every run from reset. -/
abbrev State.Inv (s : State) : Prop :=
  -- memory and W keep their canonical forms, within the 256 addresses (R40, R53)
  s.mem.wf ∧ WrittenWf s.written ∧
  -- while running, as no claim reads them after an error and none reads the pc after HLT (D8, D10): the pc is 0 to 256
  -- (R23), and FL has one of its reachable values (R24)
  (s.run = .running → s.pc.toNat ≤ 256 ∧ (s.fl = 0x00 ∨ s.fl = 0x01 ∨ s.fl = 0x02 ∨ s.fl = 0x04)) ∧
  -- the halt reason is None exactly while running (R27)
  (s.run = .running ↔ s.halt = .none) ∧
  -- a refusal is no hardware halt (R27)
  s.halt ≠ .selfModifyingCode

/-- The memory is canonical, and every cell no store has written holds its byte of the program image, or 0 after its end
(R44, R53, R234). -/
abbrev State.HoldsImage (s : State) (image : List Byte) : Prop :=
  s.mem.wf ∧ ∀ a ≤ 255, a ∉ s.written → s.mem.read a = some (image.getD a 0)

/-- No error has ended the run. After an error a claim reads nothing but the halt reason and the output sent (R205, D8,
log 5). -/
abbrev State.NoError (s : State) : Prop := s.halt = .none ∨ s.halt = .hlt

/-- What an instruction that completes leaves unchanged: every register but `regs`, every byte of memory but those at
`stored`, the run state, the halt reason, the latches and the parameters; W gains exactly `stored` (R53). The pc, FL and
the output are stated beside it. -/
structure Frame (regs : List RegIndex) (stored : List Nat) (s t : State) : Prop where
  regs : ∀ k, k ∉ regs → t.reg k = s.reg k
  mem : ∀ a, a ∉ stored → t.mem.read a = s.mem.read a
  written : ∀ a, a ∈ t.written ↔ a ∈ s.written ∨ a ∈ stored
  run : t.run = s.run
  halt : t.halt = s.halt
  latches : t.ir = s.ir ∧ t.opA = s.opA ∧ t.opB = s.opB
  params : t.params = s.params

/-- The operand byte that names a register: the whole byte is its index (R21, R67). -/
abbrev regByte (i : RegIndex) : Byte := BitVec.ofNat 8 i.val

/-- The instruction completes: `exec` answers a next state, and `post` holds of it. -/
def Completes (i : Instr) (s : State) (post : State → Prop) : Prop :=
  ∃ t, exec i s = .next t ∧ post t

/-- An outcome raises an error from `s`: the block is halted with the reason, and the output sent before stays sent. By R205
and D8 a claim reads nothing else of the state after an error (log 5). -/
def Raises (o : Result) (s : State) (reason : HaltReason) : Prop :=
  ∃ t, o = .next t ∧ t.run = .halted ∧ t.halt = reason ∧ t.out = s.out

/-- The registers an instruction may write: those its rule names as written (R20, R65), and x[7] for the four stack
instructions (R22). -/
def writtenRegisters (i : Instr) : List RegIndex :=
  ((i.mnemonic.roles.zip i.operands).filterMap fun p =>
    match p.1 with
    | .reg .written | .reg .readWritten => regIndex p.2
    | .reg .read | .imm8 | .addr8 | .ignored => none) ++
  match i.mnemonic with
  | .push | .pop | .call | .ret => [spIndex]
  | .hlt | .ldi | .ld | .st | .prn | .pra | .jmp | .jeq | .jne | .jgt | .jlt | .jge | .jle => []
  | .add | .sub | .mul | .div | .mod | .and | .or | .xor | .shl | .shr | .cmp | .inc | .dec | .not | .nop => []

/-- The address an instruction stores to, none for a form that stores nothing (R47): ST's raw operand, and x[7] after its
decrement for PUSH and CALL. -/
def storeAddress (i : Instr) (s : State) : Option Nat :=
  match i with
  | .st a _ => some a.toNat
  | .push _ | .call _ => some (s.decSp.reg spIndex).toNat
  | .hlt | .ldi _ _ | .ld _ _ | .prn _ | .pra _ | .pop _ | .ret | .jmp _ | .jeq _ | .jne _ | .jgt _ | .jlt _ => none
  | .jge _ | .jle _ | .add _ _ | .sub _ _ | .mul _ _ | .div _ _ | .mod _ _ | .and _ _ | .or _ _ | .xor _ _ => none
  | .shl _ _ | .shr _ _ | .cmp _ _ | .inc _ _ | .dec _ _ | .not _ _ | .nop => none

/-- The instruction divides by zero in `s`: DIV or MOD whose second register holds 0 (R163, R164). -/
def DividesByZero (i : Instr) (s : State) : Prop :=
  ∃ a b j, (i = .div a b ∨ i = .mod a b) ∧ regIndex b = some j ∧ s.reg j = 0

/-- How many bytes from the pc the step uses (R53): the width of a known opcode, 1 for an unknown one. -/
def usedWidth (map : OpcodeMap) (op : Byte) : Nat :=
  match map.lookup op with
  | some m => m.width
  | none => 1

/-- The state with the latches loaded. -/
def State.latched (s : State) (op a b : Byte) : State := { s with ir := op, opA := a, opB := b }

end Sys2Proof.Machine
end

