-- ==== Sys2Proof/Certificates/Slice0/Obligations.lean ====
section
/-! DEFINITION. The statements for the provers. First the shapes that instructions of one form share, then the statements.
A statement marked "model's choice" rests on a decision the spec marks as its own or on a log entry, which it names. -/

namespace Sys2Proof.Machine

/-! ## Shapes -/

/-- Format F1: the opcode alone (R60). -/
def EncodesF1 (i : Instr) (m : Mnemonic) : Prop :=
  ∀ map : OpcodeMap, map.encode i = [map.opcode m]

/-- Format F2: the opcode, then the operand a (R60). -/
def EncodesF2 (mk : Byte → Instr) (m : Mnemonic) : Prop :=
  ∀ (map : OpcodeMap) (a : Byte), map.encode (mk a) = [map.opcode m, a]

/-- Format F3: the opcode, then the operands a and b (R60). -/
def EncodesF3 (mk : Byte → Byte → Instr) (m : Mnemonic) : Prop :=
  ∀ (map : OpcodeMap) (a b : Byte), map.encode (mk a b) = [map.opcode m, a, b]

/-- `OutOfBounds` from the fetch if p > 253: the first of p, p + 1, p + 2 above 255 is reported. -/
def FetchFaultsAbove253 : Prop :=
  ∀ s : State, s.run = .running → 253 < s.pc.toNat →
    Raises (step s) s (.outOfBounds (.memory (max s.pc.toNat 256)))

/-- `OutOfBounds` if a > 7, for a form with the one operand a. -/
def ChecksA (mk : Byte → Instr) : Prop :=
  ∀ (a : Byte) (s : State), 7 < a.toNat → Raises (exec (mk a) s) s (.outOfBounds (.register a))

/-- `OutOfBounds` if a > 7, for a form whose b is no register. -/
def ChecksFirst (mk : Byte → Byte → Instr) : Prop :=
  ∀ (a b : Byte) (s : State), 7 < a.toNat → Raises (exec (mk a b) s) s (.outOfBounds (.register a))

/-- `OutOfBounds` if a > 7 or b > 7, for a form with two register operands, whatever the registers hold. Which of two bad
operands is reported is a decision of the spec (D7, log 14), and `Obligations.RegisterOperandsAreChecked` states it. -/
def ChecksBoth (mk : Byte → Byte → Instr) : Prop :=
  ∀ (a b : Byte) (s : State), 7 < a.toNat ∨ 7 < b.toNat →
    ∃ r : Byte, (r = a ∨ r = b) ∧ 7 < r.toNat ∧ Raises (exec (mk a b) s) s (.outOfBounds (.register r))

/-- What a completed register-only instruction with destination `i` leaves: everything else, FL and the output as before,
and pc <- p + 3. -/
def WritesOnly (i : RegIndex) (s t : State) : Prop :=
  Frame [i] [] s t ∧ t.fl = s.fl ∧ t.out = s.out ∧ t.pc = s.pc + 3

/-- A binary ALU instruction that writes x[a] <- f(x[a], x[b]) mod 256. -/
def BinaryResult (mk : Byte → Byte → Instr) (f : Int → Int → Int) : Prop :=
  ∀ (i j : RegIndex) (s : State), Completes (mk (regByte i) (regByte j)) s fun t =>
    ((t.reg i).toNat : Int) = f (s.reg i).toNat (s.reg j).toNat % 256 ∧ WritesOnly i s t

/-- A binary ALU instruction that writes x[a] bit by bit. -/
def BitwiseResult (mk : Byte → Byte → Instr) (f : Bool → Bool → Bool) : Prop :=
  ∀ (i j : RegIndex) (s : State), Completes (mk (regByte i) (regByte j)) s fun t =>
    (∀ n < 8, (t.reg i).getLsbD n = f ((s.reg i).getLsbD n) ((s.reg j).getLsbD n)) ∧ WritesOnly i s t

/-- A unary ALU instruction that writes x[a] <- f(x[a]) mod 256, whatever its ignored byte b. -/
def UnaryResult (mk : Byte → Byte → Instr) (f : Int → Int) : Prop :=
  ∀ (i : RegIndex) (b : Byte) (s : State), Completes (mk (regByte i) b) s fun t =>
    ((t.reg i).toNat : Int) = f (s.reg i).toNat % 256 ∧ WritesOnly i s t

/-- A conditional jump on a condition over FL: pc <- x[a] or pc <- p + 2, and nothing else changes. -/
def ConditionalJump (mk : Byte → Instr) (condition : Byte → Bool) : Prop :=
  ∀ (i : RegIndex) (s : State), Completes (mk (regByte i)) s fun t =>
    t.pc = (if condition s.fl then (s.reg i).setWidth 9 else s.pc + 2) ∧
    Frame [] [] s t ∧ t.fl = s.fl ∧ t.out = s.out

end Sys2Proof.Machine

open Sys2Proof Sys2Proof.Machine

/-! ## Encoding -/

/-- Decoding gives back every encoded instruction, with every operand byte, and leaves the bytes after it, under every
injective `OPCODE_MAP` (30_encoding.md sections 1, 2 and 4). -/
def Obligations.DecodeEncodeRoundTrip : Prop :=
  ∀ (map : OpcodeMap), map.Injective → ∀ (i : Instr) (rest : List Byte),
    map.decode (map.encode i ++ rest) = .ok (i, rest)

/-- Encoding gives back the bytes an instruction was decoded from, under every `OPCODE_MAP`: each word has one meaning, and
no bit is dropped. -/
def Obligations.EncodeDecodeRoundTrip : Prop :=
  ∀ (map : OpcodeMap) (bytes rest : List Byte) (i : Instr),
    map.decode bytes = .ok (i, rest) → map.encode i ++ rest = bytes

/-- Words written out from the encodings of the spec, one or two a family, decode to their instructions. The byte values are
the model's choice of default map (30_encoding.md R70 marks them as general knowledge; log 1). -/
def Obligations.DecodeSampleWords : Prop :=
  OpcodeMap.default.decode [0b00000001] = .ok (.hlt, []) ∧
  OpcodeMap.default.decode [0b10000010, 0b00000000, 0b00000101] = .ok (.ldi 0 5, []) ∧
  OpcodeMap.default.decode [0b10000100, 0b10000000, 0b00101010] = .ok (.st 0x80 42, []) ∧
  OpcodeMap.default.decode [0b01000111, 0b00000011] = .ok (.prn 3, []) ∧
  OpcodeMap.default.decode [0b01000101, 0b00000111] = .ok (.push 7, []) ∧
  OpcodeMap.default.decode [0b00010001, 0b11111111] = .ok (.ret, [0xFF]) ∧
  OpcodeMap.default.decode [0b01011010, 0b00000010] = .ok (.jge 2, []) ∧
  OpcodeMap.default.decode [0b10100000, 0b00000000, 0b00000001] = .ok (.add 0 1, []) ∧
  OpcodeMap.default.decode [0b01100101, 0b00000000, 0b11111111] = .ok (.inc 0 0xFF, [])

/-- The 32 values of the default map are distinct, and the 224 other bytes are unknown, INT's 0x52 and IRET's 0x13 among
them. The values are the model's choice (log 1, log 25). -/
def Obligations.DefaultMapLeaves224Unknown : Prop :=
  OpcodeMap.default.Injective ∧
  ((List.range 256).filter fun n => (OpcodeMap.default.lookup (BitVec.ofNat 8 n)).isNone).length = 224 ∧
  OpcodeMap.default.lookup 0x52 = none ∧ OpcodeMap.default.lookup 0x13 = none

/-- The value of an ignored operand byte never matters: the b of INC, DEC and NOT at execution, and the bytes after an F1 or
F2 instruction at decode. -/
def Obligations.IgnoredBytesNeverMatter : Prop :=
  (∀ (a b b' : Byte) (s : State), exec (.inc a b) s = exec (.inc a b') s ∧ exec (.dec a b) s = exec (.dec a b') s ∧
    exec (.not a b) s = exec (.not a b') s) ∧
  ∀ (map : OpcodeMap) (op a b a' b' : Byte) (m : Mnemonic), map.lookup op = some m →
    (m.format = .f1 → map.decodeLatched op a b = map.decodeLatched op a' b') ∧
    (m.format = .f2 → map.decodeLatched op a b = map.decodeLatched op a b')

/-- An assembled line decodes to a well-formed instruction with the line's mnemonic, taking all its bytes; INC, DEC and NOT
get a b byte of 0 (model's choice: D25, log 27). -/
def Obligations.AssembledLineDecodes : Prop :=
  ∀ (map : OpcodeMap) (l : AsmLine) (bytes : List Byte), map.Injective → l.assemble map = some bytes →
    ∃ i, map.decode bytes = .ok (i, []) ∧ i.WellFormed ∧ i.mnemonic = l.mnemonic ∧
      ∀ a b, (i = .inc a b ∨ i = .dec a b ∨ i = .not a b) → b = 0

/-! ## The step -/

/-- When the three bytes from the pc decode to an instruction none of whose bytes is in W, the step of a running block is
that instruction's `exec` with the latches loaded; an instruction that names a register above 7 too, whose `exec` raises. -/
def Obligations.StepRunsDecodedInstruction : Prop :=
  ∀ (s : State) (op a b : Byte) (i : Instr) (rest : List Byte),
    s.run = .running →
    s.mem.read s.pc.toNat = some op → s.mem.read (s.pc.toNat + 1) = some a → s.mem.read (s.pc.toNat + 2) = some b →
    s.params.opcodeMap.decode [op, a, b] = .ok (i, rest) →
    (∀ k < i.mnemonic.width, s.pc.toNat + k ∉ s.written) →
    step s = exec i (s.latched op a b)

/-- The fetch always reads pc, pc + 1 and pc + 2, so a running block at 254 or above raises `OutOfBounds` for the first
address above 255, whatever the memory holds. -/
def Obligations.FetchAbove253RaisesOutOfBounds : Prop := FetchFaultsAbove253

/-- An unknown opcode raises `UnknownOpcode` with the byte, after the fetch, unless the byte is in W. -/
def Obligations.UnknownOpcodeRaises : Prop :=
  ∀ (s : State) (op : Byte), s.run = .running → s.pc.toNat ≤ 253 → s.mem.read s.pc.toNat = some op →
    s.params.opcodeMap.lookup op = none → s.pc.toNat ∉ s.written →
    Raises (step s) s (.unknownOpcode op)

/-- A step is refused with `SelfModifyingCode` exactly when a running block, past a fetch in bounds, would use a byte in W:
one of the bytes up to the width of a known opcode, or an unknown opcode itself. The refusal is reported with code 7.
Model's choice (D14, log 7): the document calls this undefined. -/
def Obligations.RefusedExactlyOnWrittenBytes : Prop :=
  ∀ s : State,
    (step s = .refused .selfModifyingCode ↔
      s.run = .running ∧ s.pc.toNat ≤ 253 ∧
      ∃ op, s.mem.read s.pc.toNat = some op ∧
        ∃ k < usedWidth s.params.opcodeMap op, s.pc.toNat + k ∈ s.written) ∧
    (step s = .refused .selfModifyingCode →
      reportedReason (step s) = some .selfModifyingCode ∧ HaltReason.code .selfModifyingCode = 7)

/-- Every instruction answers a next state in every state: no instruction faults or is refused. -/
def Obligations.EveryInstructionAnswersNext : Prop :=
  ∀ (i : Instr) (s : State), ∃ t, exec i s = .next t

/-- The run state (R26, R31, R61): Running at pc 0 after the whole reset sequence; a step of a halted block changes nothing,
so that nothing but reset returns it to Running (that the step then answers the same state, and neither a fault nor a
refusal, is deduced: log 29); and no instruction reads the run state: with another run state it does the same to everything
else, of which an error leaves only the halt reason and the output to read (D8, log 5). -/
def Obligations.RunStateIsTerminalAndUnread : Prop :=
  (∀ (params : Params) (image : List Byte) (s : State), State.boot params image = some s →
    s.run = .running ∧ s.pc = 0) ∧
  (∀ s : State, s.run = .halted → step s = .next s) ∧
  (∀ (i : Instr) (s t : State) (r : RunState), exec i s = .next t →
    ∃ u, exec i { s with run := r } = .next u ∧ u.halt = t.halt ∧ u.out = t.out ∧
      (t.NoError → { u with run := t.run } = t))

/-! ## Errors -/

/-- The first register operand above 7, a before b, raises `OutOfBounds` with the operand byte, for every instruction and
every state, a jump that is not taken, NOT and a division by zero included (model's choice of when and in what order: D7,
log 14). -/
def Obligations.RegisterOperandsAreChecked : Prop :=
  ∀ (i : Instr) (s : State) (r : Byte), i.regOperands.find? (7 < ·.toNat) = some r →
    Raises (exec i s) s (.outOfBounds (.register r))

/-- A well-formed instruction other than HLT, with no zero divisor, completes without halting. -/
def Obligations.WellFormedInstructionDoesNotHalt : Prop :=
  ∀ (i : Instr) (s : State), i.WellFormed → ¬ DividesByZero i s → i ≠ .hlt →
    Completes i s fun t => t.run = s.run ∧ t.halt = s.halt

/-- No instruction raises `UnsupportedOperation`: the ALU has a rule for every operation that reaches it. -/
def Obligations.UnsupportedOperationIsUnreachable : Prop :=
  ∀ (i : Instr) (s t : State) (op : Byte), exec i s = .next t → s.halt ≠ .unsupportedOperation op →
    t.halt ≠ .unsupportedOperation op

/-- The codes of the status port (model's choice of numbers: D11, log 16). -/
def Obligations.StatusPortCodes : Prop :=
  ∀ (s : State) (i : BoundsInfo) (op a b : Byte),
    (s.stop .none).status.code = 0 ∧ (s.stop .hlt).status.code = 1 ∧ (s.stop (.outOfBounds i)).status.code = 2 ∧
    (s.stop (.unknownOpcode op)).status.code = 3 ∧ (s.stop (.divisionByZero a b)).status.code = 4 ∧
    (s.stop (.moduloByZero a b)).status.code = 5 ∧ (s.stop (.unsupportedOperation op)).status.code = 6 ∧
    s.status.run = s.run ∧ s.status.reason = s.halt

/-! ## Reset -/

/-- Every piece of state after reset, for every value of the parameters: x[7] is SP_RESET, whatever it is. State.reset is
that state with the defaults. Model's choice: that SP_RESET is a parameter and its default (D3, log 3), the other defaults
(logs 1 and 4) and the place of the parameters (log 2). The latches are left out, as they are not architectural (log 9). -/
def Obligations.ResetState : Prop :=
  (∀ params : Params,
    let s := State.resetWith params
    (∀ k : RegIndex, k ≠ spIndex → s.reg k = 0) ∧ s.reg spIndex = params.spReset ∧
    s.pc = 0 ∧ s.fl = 0 ∧ s.run = .running ∧ s.halt = .none ∧
    (∀ a ≤ 255, s.mem.read a = some 0) ∧ s.out = [] ∧ s.written = [] ∧ s.params = params) ∧
  State.reset = State.resetWith State.reset.params ∧ State.reset.reg spIndex = 0xF4 ∧
  State.reset.params.spReset = 0xF4 ∧ State.reset.params.praAdvance = .stay ∧
  State.reset.params.opcodeMap = OpcodeMap.default

/-- The reset sequence puts the image at consecutive addresses from 0 and leaves 0 after it and the rest of the reset state,
W empty; an image longer than 256 bytes does not start the block (model's choice: D13, log 20). -/
def Obligations.BootLoadsImage : Prop :=
  ∀ (params : Params) (image : List Byte),
    (image.length ≤ 256 → ∃ s, State.boot params image = some s ∧
      (∀ a ≤ 255, s.mem.read a = some (image.getD a 0)) ∧ s.written = [] ∧
      s = { State.resetWith params with mem := s.mem }) ∧
    (256 < image.length → State.boot params image = none)

/-! ## Invariants -/

/-- Every step keeps the invariant of runs: memory and W in canonical form within the 256 addresses, the halt reason None
exactly while running, no refusal as a halt reason, and while running the pc at most 256 and FL one of 0, 1, 2, 4. Model's
choice: that no next state holds SelfModifyingCode is deduced (log 7: R53 says the halt reason becomes it, R27 that it is no
hardware halt, and here the refusal carries it); the widths of pc and FL are decisions of the spec (D12, D20; logs 10 and
15). -/
def Obligations.StepKeepsInvariant : Prop :=
  ∀ s t : State, s.Inv → step s = .next t → t.Inv

/-- The invariant holds at State.reset. -/
def Obligations.ResetSatisfiesInvariant : Prop := State.reset.Inv

/-- The invariant holds after the reset sequence with any parameters and any image that fits. -/
def Obligations.BootSatisfiesInvariant : Prop :=
  ∀ (params : Params) (image : List Byte) (s : State), State.boot params image = some s → s.Inv

/-- In a step that raises no error, W only grows, by at most one address, and every byte outside it reads as before. -/
def Obligations.StepKeepsUnwrittenBytes : Prop :=
  ∀ s t : State, s.mem.wf → step s = .next t → t.NoError →
    (∀ a ∈ s.written, a ∈ t.written) ∧ (∃ x, ∀ a ∈ t.written, a ∈ s.written ∨ a = x) ∧
    ∀ a, a ∉ t.written → t.mem.read a = s.mem.read a

/-- For every image, every step that raises no error keeps the invariant that the memory is canonical and every cell
outside W holds its byte of the image, or 0 after its end (D8, log 5 for the error). -/
def Obligations.StepKeepsImageOutsideWritten : Prop :=
  ∀ (image : List Byte) (s t : State), s.HoldsImage image → step s = .next t → t.NoError → t.HoldsImage image

/-- Along every run from the reset sequence that no error has ended (D8, log 5), a cell outside W holds its value from the
program image: with the refusal of W, every byte a run executes is the image's. That the loader places the image from
address 0 is a decision of the spec (D13, log 20). -/
def Obligations.UnwrittenBytesKeepTheImage : Prop :=
  ∀ (params : Params) (image : List Byte) (s t : State) (n : Nat),
    State.boot params image = some s → Host.Core.run Sys2Proof.core n s = .next t → t.NoError →
    ∀ a ≤ 255, a ∉ t.written → t.mem.read a = some (image.getD a 0)

/-- No step writes the parameters. -/
def Obligations.StepKeepsParameters : Prop :=
  ∀ s t : State, step s = .next t → t.params = s.params

/-- A step sends at most one output event, and only by PRN or PRA; events already sent are kept. -/
def Obligations.OutputOnlyGrows : Prop :=
  ∀ (i : Instr) (s t : State), exec i s = .next t →
    t.out = s.out ∨
    (∃ k, i = .prn (regByte k) ∧ t.out = s.out ++ [.dec (s.reg k)]) ∨
    (∃ k, i = .pra (regByte k) ∧ t.out = s.out ++ [.char (s.reg k)])

/-! ## Whole-machine frames

After an error a claim reads only the halt reason and the output (D8, log 5), so these speak of next states with no error. -/

/-- Only CMP writes FL. -/
def Obligations.OnlyCmpWritesFlags : Prop :=
  ∀ (i : Instr) (s t : State), (∀ a b, i ≠ .cmp a b) → exec i s = .next t → t.NoError → t.fl = s.fl

/-- Only the six conditional jumps read FL: every other instruction does the same to everything else whatever FL holds. -/
def Obligations.OnlyConditionalJumpsReadFlags : Prop :=
  ∀ (i : Instr) (s t : State) (f : Byte),
    (∀ a, i ≠ .jeq a ∧ i ≠ .jne a ∧ i ≠ .jgt a ∧ i ≠ .jlt a ∧ i ≠ .jge a ∧ i ≠ .jle a) → exec i s = .next t →
    ∃ u, exec i { s with fl := f } = .next u ∧ u.halt = t.halt ∧ u.out = t.out ∧
      (t.NoError → { u with fl := t.fl } = t)

/-- Registers change only where the instruction's rule writes them: an operand register marked written, or x[7] for PUSH,
POP, CALL and RET. -/
def Obligations.OnlyNamedRegistersChange : Prop :=
  ∀ (i : Instr) (s t : State), exec i s = .next t → t.NoError → ∀ k, k ∉ writtenRegisters i → t.reg k = s.reg k

/-- Memory changes only at the address ST, PUSH or CALL stores to; for every other instruction every byte reads as
before. -/
def Obligations.OnlyStoresChangeMemory : Prop :=
  ∀ (i : Instr) (s t : State), s.mem.wf → exec i s = .next t → t.NoError →
    ∀ a, storeAddress i s ≠ some a → t.mem.read a = s.mem.read a

/-! ## Memory -/

/-- MemRead and MemWrite: above 255 each raises `OutOfBounds(memory, address)`; up to 255 a read goes on with the byte of the
cell and changes nothing, and a write stores the value modulo 256 in its cell and leaves every other cell and everything
else but the model's own set W (D14, log 8), of which this says nothing. -/
def Obligations.MemoryReadAndWrite : Prop :=
  ∀ (s : State) (address v : Nat), s.mem.wf →
    (255 < address →
      (∀ k, Raises (readByte address s k) s (.outOfBounds (.memory address))) ∧
      ∀ k, Raises (storeByte address v s k) s (.outOfBounds (.memory address))) ∧
    (address ≤ 255 →
      (∃ x, s.mem.read address = some x ∧ ∀ k, readByte address s k = k x) ∧
      ∃ t, (∀ k, storeByte address v s k = k t) ∧ t.mem.wf ∧
        t.mem.read address = some (BitVec.ofNat 8 (v % 256)) ∧
        (∀ other, other ≠ address → t.mem.read other = s.mem.read other) ∧
        t = { s with mem := t.mem, written := t.written })

/-! ## System -/

/-- HLT, one byte, halts with reason Hlt and keeps registers, FL, memory and output. It says nothing of the pc (D10,
log 6). -/
def Obligations.HltHalts : Prop :=
  EncodesF1 .hlt .hlt ∧
  ∀ s : State, Completes .hlt s fun t =>
    t.run = .halted ∧ t.halt = .hlt ∧ t.fl = s.fl ∧ t.out = s.out ∧
    Frame [] [] s { t with run := s.run, halt := s.halt }

/-- NOP: pc <- p + 1 and nothing else. -/
def Obligations.NopAdvances : Prop :=
  EncodesF1 .nop .nop ∧
  (∀ s : State, Completes .nop s fun t => t.pc = s.pc + 1 ∧ Frame [] [] s t ∧ t.fl = s.fl ∧ t.out = s.out) ∧
  FetchFaultsAbove253

/-! ## Load and store -/

/-- LDI: x[a] <- b, pc <- p + 3. -/
def Obligations.LdiLoadsImmediate : Prop :=
  EncodesF3 .ldi .ldi ∧
  (∀ (i : RegIndex) (b : Byte) (s : State), Completes (.ldi (regByte i) b) s fun t => t.reg i = b ∧ WritesOnly i s t) ∧
  ChecksFirst .ldi ∧ FetchFaultsAbove253

/-- LD: x[a] <- MemRead(x[b], 1), at the old x[b] also where a = b; pc <- p + 3. -/
def Obligations.LdLoadsIndirect : Prop :=
  EncodesF3 .ld .ld ∧
  (∀ (i j : RegIndex) (s : State), ∃ v, s.mem.read (s.reg j).toNat = some v ∧
    Completes (.ld (regByte i) (regByte j)) s fun t => t.reg i = v ∧ WritesOnly i s t) ∧
  ChecksBoth .ld ∧ FetchFaultsAbove253

/-- ST: MemWrite(a, 1, b) with the raw operand bytes, W <- W ∪ {a}, pc <- p + 3; any a and b. -/
def Obligations.StStoresImmediate : Prop :=
  EncodesF3 .st .st ∧
  (∀ (a b : Byte) (s : State), s.mem.wf → Completes (.st a b) s fun t =>
    t.mem.read a.toNat = some b ∧ Frame [] [a.toNat] s t ∧ t.fl = s.fl ∧ t.out = s.out ∧ t.pc = s.pc + 3) ∧
  FetchFaultsAbove253

/-! ## Output -/

/-- PRN: emit(OutDec(x[a])), pc <- p + 2; 0 and 255 are shown as their digits and a newline. -/
def Obligations.PrnEmitsDecimal : Prop :=
  EncodesF2 .prn .prn ∧
  (∀ (i : RegIndex) (s : State), Completes (.prn (regByte i)) s fun t =>
    t.out = s.out ++ [.dec (s.reg i)] ∧ t.pc = s.pc + 2 ∧ Frame [] [] s t ∧ t.fl = s.fl) ∧
  OutEvent.console (.dec 0) = [.digit 0, .newline] ∧
  OutEvent.console (.dec 255) = [.digit 2, .digit 5, .digit 5, .newline] ∧
  ChecksA .prn ∧ FetchFaultsAbove253

/-- PRA: emit(OutChar(x[a])), pc <- p + PRA_ADVANCE, for both values of the parameter (D9, log 4). -/
def Obligations.PraEmitsCharacter : Prop :=
  EncodesF2 .pra .pra ∧
  (∀ (i : RegIndex) (s : State), Completes (.pra (regByte i)) s fun t =>
    t.out = s.out ++ [.char (s.reg i)] ∧ Frame [] [] s t ∧ t.fl = s.fl ∧
    (s.params.praAdvance = .stay → t.pc = s.pc) ∧ (s.params.praAdvance = .advance → t.pc = s.pc + 2)) ∧
  ChecksA .pra

/-- With PRA_ADVANCE = 0 a block at a PRA emits the same character once a step for ever and never halts. -/
def Obligations.PraWithoutAdvanceNeverEnds : Prop :=
  ∀ (s : State) (op b : Byte) (i : RegIndex) (n : Nat),
    s.run = .running → s.params.praAdvance = .stay → s.params.opcodeMap.lookup op = some .pra →
    s.mem.read s.pc.toNat = some op → s.mem.read (s.pc.toNat + 1) = some (regByte i) →
    s.mem.read (s.pc.toNat + 2) = some b →
    s.pc.toNat ∉ s.written → s.pc.toNat + 1 ∉ s.written →
    ∃ t, Host.Core.run Sys2Proof.core n s = .next t ∧ t.run = .running ∧ t.pc = s.pc ∧
      t.out = s.out ++ List.replicate n (.char (s.reg i))

/-- `OutDec(v)` is shown as the decimal digits of v with no leading zeros and a newline, `OutChar(v)` as one character of
code v. How a character looks is the console's (D19, log 17). -/
def Obligations.ConsoleShowsEvents : Prop :=
  ∀ v : Byte, OutEvent.console (.char v) = [.character v] ∧
    ∃ digits : List Nat, OutEvent.console (.dec v) = digits.map .digit ++ [.newline] ∧
      (∀ d ∈ digits, d < 10) ∧ Nat.ofDigits 10 digits.reverse = v.toNat ∧ digits ≠ [] ∧
      (digits.head? = some 0 → v = 0 ∧ digits = [0])

/-! ## Stack -/

/-- PUSH: x[7] <- x[7] - 1 modulo 256 (D4, log 11), then the byte of x[a], read after the decrement (D26, log 23), is stored
at the new x[7]; pc <- p + 2. -/
def Obligations.PushStores : Prop :=
  EncodesF2 .push .push ∧
  (∀ (i : RegIndex) (s : State), s.mem.wf → Completes (.push (regByte i)) s fun t =>
    t.reg spIndex = s.reg spIndex - 1 ∧
    t.mem.read (s.decSp.reg spIndex).toNat = some (if i = spIndex then s.reg spIndex - 1 else s.reg i) ∧
    Frame [spIndex] [(s.decSp.reg spIndex).toNat] s t ∧ t.fl = s.fl ∧ t.out = s.out ∧ t.pc = s.pc + 2) ∧
  ChecksA .push

/-- POP: x[a] <- the byte at x[7], then x[7] <- x[7] + 1 modulo 256 (D4, log 11), so that POP R7 leaves the popped byte plus 1
(D26, log 23); pc <- p + 2. -/
def Obligations.PopLoads : Prop :=
  EncodesF2 .pop .pop ∧
  (∀ (i : RegIndex) (s : State), ∃ v, s.mem.read (s.reg spIndex).toNat = some v ∧
    Completes (.pop (regByte i)) s fun t =>
      t.reg i = (if i = spIndex then v + 1 else v) ∧
      (i ≠ spIndex → t.reg spIndex = s.reg spIndex + 1) ∧
      Frame [i, spIndex] [] s t ∧ t.fl = s.fl ∧ t.out = s.out ∧ t.pc = s.pc + 2) ∧
  ChecksA .pop

/-! ## Control transfer -/

/-- CALL: x[7] <- x[7] - 1 modulo 256 (D4, log 11), p + 2 stored there, pc <- x[a] read after the decrement (D26, log 23). -/
def Obligations.CallPushesReturnAddress : Prop :=
  EncodesF2 .call .call ∧
  (∀ (i : RegIndex) (s : State), s.mem.wf → Completes (.call (regByte i)) s fun t =>
    t.reg spIndex = s.reg spIndex - 1 ∧
    t.mem.read (s.decSp.reg spIndex).toNat = some (BitVec.ofNat 8 (s.pc.toNat + 2)) ∧
    t.pc = (if i = spIndex then s.reg spIndex - 1 else s.reg i).setWidth 9 ∧
    Frame [spIndex] [(s.decSp.reg spIndex).toNat] s t ∧ t.fl = s.fl ∧ t.out = s.out) ∧
  ChecksA .call

/-- RET: pc <- the byte at x[7], x[7] <- x[7] + 1 modulo 256 (D4, log 11). -/
def Obligations.RetPopsTarget : Prop :=
  EncodesF1 .ret .ret ∧
  ∀ s : State, ∃ v, s.mem.read (s.reg spIndex).toNat = some v ∧
    Completes .ret s fun t =>
      t.pc = v.setWidth 9 ∧ t.reg spIndex = s.reg spIndex + 1 ∧
      Frame [spIndex] [] s t ∧ t.fl = s.fl ∧ t.out = s.out

/-- CALL and RET round-trip the program counter: a RET that finds the byte CALL pushed on top of the stack, in any state that
agrees with the called one on SP and that byte, resumes at the byte after the CALL with SP as before it. -/
def Obligations.CallThenRetReturns : Prop :=
  ∀ (i : RegIndex) (s t u : State), s.mem.wf → s.pc.toNat ≤ 253 →
    exec (.call (regByte i)) s = .next t →
    u.reg spIndex = t.reg spIndex → u.mem.read (t.reg spIndex).toNat = t.mem.read (t.reg spIndex).toNat →
    Completes .ret u fun v => v.pc = s.pc + 2 ∧ v.reg spIndex = s.reg spIndex

/-- JMP: pc <- x[a], and nothing else. A running block at a JMP of a register that holds the JMP's own address, its bytes
not in W, is after every number of steps in the state it started from, but for the latches its fetch loads. -/
def Obligations.JmpReplacesPc : Prop :=
  EncodesF2 .jmp .jmp ∧
  (∀ (i : RegIndex) (s : State), Completes (.jmp (regByte i)) s fun t =>
    t.pc = (s.reg i).setWidth 9 ∧ Frame [] [] s t ∧ t.fl = s.fl ∧ t.out = s.out) ∧
  (∀ (s : State) (op b : Byte) (i : RegIndex) (n : Nat),
    s.run = .running → s.params.opcodeMap.lookup op = some .jmp →
    s.mem.read s.pc.toNat = some op → s.mem.read (s.pc.toNat + 1) = some (regByte i) →
    s.mem.read (s.pc.toNat + 2) = some b →
    s.pc.toNat ∉ s.written → s.pc.toNat + 1 ∉ s.written → (s.reg i).toNat = s.pc.toNat →
    ∃ t, Host.Core.run Sys2Proof.core n s = .next t ∧ { t with ir := s.ir, opA := s.opA, opB := s.opB } = s) ∧
  ChecksA .jmp ∧ FetchFaultsAbove253

/-- The six conditional jumps, by the bits E = 0, G = 1, L = 2 of FL; the register is checked taken or not (D7, log 14). -/
def Obligations.ConditionalJumpsFollowFlags : Prop :=
  EncodesF2 .jeq .jeq ∧ EncodesF2 .jne .jne ∧ EncodesF2 .jgt .jgt ∧ EncodesF2 .jlt .jlt ∧ EncodesF2 .jge .jge ∧
  EncodesF2 .jle .jle ∧
  ConditionalJump .jeq (fun fl => fl.getLsbD 0) ∧
  ConditionalJump .jne (fun fl => !fl.getLsbD 0) ∧
  ConditionalJump .jgt (fun fl => fl.getLsbD 1) ∧
  ConditionalJump .jlt (fun fl => fl.getLsbD 2) ∧
  ConditionalJump .jge (fun fl => fl.getLsbD 0 || fl.getLsbD 1) ∧
  ConditionalJump .jle (fun fl => fl.getLsbD 0 || fl.getLsbD 2) ∧
  ChecksA .jeq ∧ ChecksA .jne ∧ ChecksA .jgt ∧ ChecksA .jlt ∧ ChecksA .jge ∧ ChecksA .jle

/-- CMP and then a conditional jump branch by the unsigned order of the two registers compared. -/
def Obligations.CmpThenJumpFollowsOrder : Prop :=
  ∀ (i j k : RegIndex) (s t : State), exec (.cmp (regByte i) (regByte j)) s = .next t →
    let x := (s.reg i).toNat
    let y := (s.reg j).toNat
    let target := (s.reg k).setWidth 9
    Completes (.jeq (regByte k)) t (fun u => u.pc = if x = y then target else s.pc + 5) ∧
    Completes (.jne (regByte k)) t (fun u => u.pc = if x ≠ y then target else s.pc + 5) ∧
    Completes (.jgt (regByte k)) t (fun u => u.pc = if x > y then target else s.pc + 5) ∧
    Completes (.jlt (regByte k)) t (fun u => u.pc = if x < y then target else s.pc + 5) ∧
    Completes (.jge (regByte k)) t (fun u => u.pc = if x ≥ y then target else s.pc + 5) ∧
    Completes (.jle (regByte k)) t (fun u => u.pc = if x ≤ y then target else s.pc + 5)

/-! ## ALU -/

/-- ADD, SUB and MUL: x[a] <- x[a] OP x[b] modulo 256, no flag and no trap. -/
def Obligations.AddSubMulWrap : Prop :=
  EncodesF3 .add .add ∧ EncodesF3 .sub .sub ∧ EncodesF3 .mul .mul ∧
  BinaryResult .add (fun x y => x + y) ∧ BinaryResult .sub (fun x y => x - y) ∧ BinaryResult .mul (fun x y => x * y) ∧
  ChecksBoth .add ∧ ChecksBoth .sub ∧ ChecksBoth .mul ∧ FetchFaultsAbove253

/-- DIV: x[a] <- x[a] div x[b] where x[b] is not 0; where it is, `DivisionByZero(a, b)`. The register checks come first,
which is a decision of the spec (D7, log 14). -/
def Obligations.DivDividesOrRaises : Prop :=
  EncodesF3 .div .div ∧
  (∀ (i j : RegIndex) (s : State), s.reg j ≠ 0 → Completes (.div (regByte i) (regByte j)) s fun t =>
    (t.reg i).toNat = (s.reg i).toNat / (s.reg j).toNat ∧ WritesOnly i s t) ∧
  (∀ (i j : RegIndex) (s : State), s.reg j = 0 →
    Raises (exec (.div (regByte i) (regByte j)) s) s (.divisionByZero (regByte i) (regByte j))) ∧
  ChecksBoth .div ∧ FetchFaultsAbove253

/-- MOD: x[a] <- x[a] rem x[b] where x[b] is not 0; where it is, `ModuloByZero(a, b)`, after the register checks. The
error's name and the place of the checks are decisions of the spec (D21, log 26; D7, log 14). -/
def Obligations.ModReducesOrRaises : Prop :=
  EncodesF3 .mod .mod ∧
  (∀ (i j : RegIndex) (s : State), s.reg j ≠ 0 → Completes (.mod (regByte i) (regByte j)) s fun t =>
    (t.reg i).toNat = (s.reg i).toNat % (s.reg j).toNat ∧ WritesOnly i s t) ∧
  (∀ (i j : RegIndex) (s : State), s.reg j = 0 →
    Raises (exec (.mod (regByte i) (regByte j)) s) s (.moduloByZero (regByte i) (regByte j))) ∧
  ChecksBoth .mod

/-- R176: for a divisor y that is not 0, DIV's quotient and MOD's remainder satisfy x = q * y + r with r < y. -/
def Obligations.DivModRelation : Prop :=
  ∀ (i j : RegIndex) (s t u : State), s.reg j ≠ 0 →
    exec (.div (regByte i) (regByte j)) s = .next t → exec (.mod (regByte i) (regByte j)) s = .next u →
    (s.reg i).toNat = (t.reg i).toNat * (s.reg j).toNat + (u.reg i).toNat ∧ (u.reg i).toNat < (s.reg j).toNat

/-- AND, OR and XOR, bit by bit. -/
def Obligations.AndOrXorBitByBit : Prop :=
  EncodesF3 .and .and ∧ EncodesF3 .or .or ∧ EncodesF3 .xor .xor ∧
  BitwiseResult .and (fun x y => x && y) ∧ BitwiseResult .or (fun x y => x || y) ∧ BitwiseResult .xor (fun x y => x ^^ y) ∧
  ChecksBoth .and ∧ ChecksBoth .or ∧ ChecksBoth .xor ∧ FetchFaultsAbove253

/-- SHL and SHR with the full count 0 to 255, so that a count of 8 or more gives 0 (D6, log 13); SHR brings in zeros. -/
def Obligations.ShiftsUseFullCount : Prop :=
  EncodesF3 .shl .shl ∧ EncodesF3 .shr .shr ∧
  (∀ (i j : RegIndex) (s : State), Completes (.shl (regByte i) (regByte j)) s fun t =>
    (∀ n < 8, (t.reg i).getLsbD n = (decide ((s.reg j).toNat ≤ n) && (s.reg i).getLsbD (n - (s.reg j).toNat))) ∧
    (8 ≤ (s.reg j).toNat → t.reg i = 0) ∧ WritesOnly i s t) ∧
  (∀ (i j : RegIndex) (s : State), Completes (.shr (regByte i) (regByte j)) s fun t =>
    (∀ n < 8, (t.reg i).getLsbD n = (s.reg i).getLsbD (n + (s.reg j).toNat)) ∧
    (8 ≤ (s.reg j).toNat → t.reg i = 0) ∧ WritesOnly i s t) ∧
  ChecksBoth .shl ∧ ChecksBoth .shr

/-- CMP: FL becomes exactly E, G or L by the unsigned order, whatever it was; no register changes. -/
def Obligations.CmpSetsFlags : Prop :=
  EncodesF3 .cmp .cmp ∧
  (∀ (i j : RegIndex) (s : State), Completes (.cmp (regByte i) (regByte j)) s fun t =>
    ((s.reg i).toNat = (s.reg j).toNat → t.fl = 0b00000001) ∧
    ((s.reg i).toNat > (s.reg j).toNat → t.fl = 0b00000010) ∧
    ((s.reg i).toNat < (s.reg j).toNat → t.fl = 0b00000100) ∧
    Frame [] [] s t ∧ t.out = s.out ∧ t.pc = s.pc + 3) ∧
  ChecksBoth .cmp ∧ FetchFaultsAbove253

/-- INC and DEC: x[a] plus or minus 1 modulo 256 (D5, log 12); b is never checked. -/
def Obligations.IncDecWrap : Prop :=
  EncodesF3 .inc .inc ∧ EncodesF3 .dec .dec ∧
  UnaryResult .inc (fun x => x + 1) ∧ UnaryResult .dec (fun x => x - 1) ∧
  ChecksFirst .inc ∧ ChecksFirst .dec

/-- NOT writes nothing: x[a] and FL are unchanged and pc <- p + 3; a is checked (D7, log 14), b is not. -/
def Obligations.NotHasNoEffect : Prop :=
  EncodesF3 .not .not ∧
  (∀ (i : RegIndex) (b : Byte) (s : State), Completes (.not (regByte i) b) s fun t =>
    Frame [] [] s t ∧ t.fl = s.fl ∧ t.out = s.out ∧ t.pc = s.pc + 3) ∧
  ChecksFirst .not

/-! ## Trace port -/

/-- The trace port shows the pc, the registers and the memory bytes at pc, pc + 1 and pc + 2, never the latches, and changes
nothing; of a byte above 255 nothing is said (D24, log 18). -/
def Obligations.TracePortShowsMemory : Prop :=
  ∀ (s : State) (draw : Nat),
    (s.trace draw).pc = s.pc ∧ (s.trace draw).regs = s.regs ∧
    (s.pc.toNat ≤ 255 → s.mem.read s.pc.toNat = some (s.trace draw).byte0) ∧
    (s.pc.toNat + 1 ≤ 255 → s.mem.read (s.pc.toNat + 1) = some (s.trace draw).byte1) ∧
    (s.pc.toNat + 2 ≤ 255 → s.mem.read (s.pc.toNat + 2) = some (s.trace draw).byte2) ∧
    ∀ op a b, (s.latched op a b).trace draw = s.trace draw
end

