-- ==== Sys2Proof/Laws/Decode.lean ====
section
/-! SUPPORT. Look-up in an `OPCODE_MAP` (spec/30_encoding.md R64, R70). -/

namespace Sys2Proof

/-- Every mnemonic is in the list of all. -/
theorem Mnemonic.mem_all (m : Mnemonic) : m ∈ Mnemonic.all := by cases m <;> decide

/-- An injective map finds the mnemonic of its own opcode byte. -/
theorem OpcodeMap.lookup_opcode {map : OpcodeMap} (h : map.Injective) (m : Mnemonic) :
    map.lookup (map.opcode m) = some m := by
  have key : ∀ l : List Mnemonic, (l.map map.opcode).Nodup → m ∈ l →
      l.find? (fun n => map.opcode n == map.opcode m) = some m := by
    intro l hn hm
    induction l with
    | nil => cases hm
    | cons x rest ih =>
      rw [List.map_cons, List.nodup_cons] at hn
      by_cases hx : x = m
      · subst hx; simp
      · have hm' : m ∈ rest := by simpa [Ne.symm hx] using hm
        have : map.opcode x ≠ map.opcode m := fun e => hn.1 (e ▸ List.mem_map_of_mem hm')
        simp [this, ih hn.2 hm']
  exact key _ h m.mem_all

/-- A mnemonic that a map finds has that opcode byte. -/
theorem OpcodeMap.opcode_of_lookup {map : OpcodeMap} {op : Byte} {m : Mnemonic} (h : map.lookup op = some m) :
    map.opcode m = op := by
  simpa using List.find?_some h

/-- Building an instruction from a mnemonic keeps the mnemonic. -/
@[simp] theorem Instr.mnemonic_build (a b : Byte) (m : Mnemonic) : (m.build a b).mnemonic = m := by cases m <;> rfl

/-- Decode of three latched bytes is the byte-list decode of them. -/
theorem OpcodeMap.decode_three {map : OpcodeMap} {op a b : Byte} {i : Instr} {rest : List Byte}
    (h : map.decode [op, a, b] = .ok (i, rest)) : map.decodeLatched op a b = some i := by
  simp only [OpcodeMap.decode] at h
  split at h
  · cases h
  · rename_i m hm
    have hi : m.build a b = i := by cases m <;> simp_all [Mnemonic.format, Mnemonic.build]
    simp [OpcodeMap.decodeLatched, hm, hi]

end Sys2Proof
end

