-- ==== Sys2Proof/Laws/Memory.lean ====
section
/-! SUPPORT. The laws of memory (spec/20_memory.md R42, R43): a read after a write, and that every operation keeps the
canonical form; the same for the set W. -/

namespace Sys2Proof.Machine

/-- In a list whose addresses all lie above `a`, the cell at `a` is unlisted. -/
theorem cellAt_of_below {cells : List Host.Cell} {a : Nat} (h : ∀ c ∈ cells, a < c.1) :
    cellAt cells a = Memory.unlisted := by
  induction cells with
  | nil => rfl
  | cons c rest ih =>
    have hc : a < c.1 := h c (by simp)
    have hr := ih fun d hd => h d (by simp [hd])
    obtain ⟨k, w⟩ := c
    simp [cellAt, hr, Nat.ne_of_gt hc]

/-- Read after write, in a list of rising addresses. -/
theorem cellAt_setCell {cells : List Host.Cell} (h : cells.Pairwise (·.1 < ·.1)) (a b : Nat) (v : Byte) :
    cellAt (setCell cells a v) b = if a = b then v else cellAt cells b := by
  induction cells with
  | nil =>
    by_cases hv : v = Memory.unlisted <;> by_cases hab : a = b <;> simp [setCell, cellAt, hv, hab]
  | cons c rest ih =>
    obtain ⟨k, w⟩ := c
    rw [List.pairwise_cons] at h
    have hrest := ih h.2
    have below : ∀ x, x ≤ k → cellAt rest x = Memory.unlisted := fun x hx =>
      cellAt_of_below fun d hd => Nat.lt_of_le_of_lt hx (h.1 d hd)
    rcases Nat.lt_trichotomy a k with h1 | rfl | h1
    · by_cases hv : v = Memory.unlisted
      · have e : cellAt ((k, w) :: rest) a = v := by
          have : k ≠ a := by omega
          simp [cellAt, this, below a (by omega), hv]
        by_cases hab : a = b
        · subst hab; simpa [setCell, h1, hv] using e.trans hv
        · simp [setCell, h1, hv, hab]
      · simp [setCell, h1, hv, cellAt]
    · by_cases hv : v = Memory.unlisted
      · by_cases hab : a = b
        · subst hab; simp [setCell, hv, below a (Nat.le_refl a)]
        · simp [setCell, hv, cellAt, hab]
      · by_cases hab : a = b <;> simp [setCell, hv, cellAt, hab]
    · have hlt : ¬ a < k := by omega
      have hne : a ≠ k := by omega
      by_cases hkb : k = b
      · subst hkb
        simp [setCell, hlt, hne, cellAt]
      · simp [setCell, hlt, hne, cellAt, hkb, hrest]

/-- What a list holds after a write: the written pair, or a pair it held before. -/
theorem mem_setCell {cells : List Host.Cell} {a : Nat} {v : Byte} {c : Host.Cell} (h : c ∈ setCell cells a v) :
    (c = (a, v) ∧ v ≠ Memory.unlisted) ∨ c ∈ cells := by
  induction cells with
  | nil =>
    unfold setCell at h
    split_ifs at h with hv
    · simp at h
    · simp at h; exact .inl ⟨h, hv⟩
  | cons d rest ih =>
    obtain ⟨k, w⟩ := d
    unfold setCell at h
    split_ifs at h with h1 hv h2 hv
    · exact .inr h
    · rcases List.mem_cons.1 h with h | h
      · exact .inl ⟨h, hv⟩
      · exact .inr h
    · exact .inr (List.mem_cons_of_mem _ h)
    · rcases List.mem_cons.1 h with h | h
      · exact .inl ⟨h, hv⟩
      · exact .inr (List.mem_cons_of_mem _ h)
    · rcases List.mem_cons.1 h with h | h
      · exact .inr (by simp [h])
      · rcases ih h with h | h
        · exact .inl h
        · exact .inr (List.mem_cons_of_mem _ h)

/-- A write keeps the addresses strictly rising. -/
theorem pairwise_setCell {cells : List Host.Cell} (h : cells.Pairwise (·.1 < ·.1)) (a : Nat) (v : Byte) :
    (setCell cells a v).Pairwise (·.1 < ·.1) := by
  induction cells with
  | nil => unfold setCell; split_ifs <;> simp
  | cons c rest ih =>
    obtain ⟨k, w⟩ := c
    have h' := List.pairwise_cons.1 h
    unfold setCell
    split_ifs with h1 hv h2 hv
    · exact h
    · refine List.pairwise_cons.2 ⟨fun d hd => ?_, h⟩
      rcases List.mem_cons.1 hd with rfl | hd
      · exact h1
      · exact Nat.lt_trans h1 (h'.1 d hd)
    · exact h'.2
    · exact List.pairwise_cons.2 ⟨fun d hd => h2 ▸ h'.1 d hd, h'.2⟩
    · refine List.pairwise_cons.2 ⟨fun d hd => ?_, ih h'.2⟩
      rcases mem_setCell hd with ⟨rfl, -⟩ | hd
      · show k < a; omega
      · exact h'.1 d hd

/-! ## Memory -/

/-- A read inside the 256 addresses answers a byte (R42). -/
theorem Memory.read_of_le (m : Memory) {a : Nat} (h : a ≤ 255) : m.read a = some (cellAt m.cells a) := by
  simp [Memory.read, Nat.not_lt.2 h]

/-- A read above them answers none (R42). -/
theorem Memory.read_of_lt (m : Memory) {a : Nat} (h : 255 < a) : m.read a = none := by
  simp [Memory.read, h]

/-- A read at an 8-bit address answers a byte (R47). -/
theorem Memory.read_byte (m : Memory) (v : Byte) : m.read v.toNat = some (cellAt m.cells v.toNat) :=
  m.read_of_le (Nat.le_of_lt_succ v.isLt)

/-- Read after write (R42, R43). -/
theorem Memory.read_write {m n : Memory} (hm : m.wf) {a v : Nat} (h : m.write a v = some n) (b : Nat) :
    n.read b = if a = b then some (BitVec.ofNat 8 v) else m.read b := by
  unfold Memory.write at h
  split_ifs at h with ha
  cases h
  by_cases hb : 255 < b
  · have : a ≠ b := by omega
    simp [Memory.read, hb, this]
  · simp only [Memory.read, hb, if_false, cellAt_setCell hm.1]
    split_ifs <;> rfl

/-- A write keeps the canonical form. -/
theorem Memory.wf_write {m n : Memory} (hm : m.wf) {a v : Nat} (h : m.write a v = some n) : n.wf := by
  unfold Memory.write at h
  split_ifs at h with ha
  cases h
  refine ⟨pairwise_setCell hm.1 _ _, fun c hc => ?_⟩
  rcases mem_setCell hc with ⟨rfl, hv⟩ | hc
  · exact ⟨by show a < 256; omega, hv⟩
  · exact hm.2 c hc

/-- The empty memory is in canonical form. -/
theorem Memory.wf_empty : (⟨[]⟩ : Memory).wf := by simp [Memory.wf]

/-! ## The set W -/

/-- An inserted set holds the address and what it held. -/
theorem mem_insertAddress {a b : Nat} {w : List Nat} : b ∈ insertAddress a w ↔ b = a ∨ b ∈ w := by
  induction w with
  | nil => simp [insertAddress]
  | cons k rest ih =>
    unfold insertAddress
    split_ifs with h1 h2
    · simp
    · subst h2; simp
    · simp only [List.mem_cons, ih]; tauto

/-- Inserting keeps the form of W. -/
theorem writtenWf_insertAddress {a : Nat} {w : List Nat} (ha : a < 256) (hw : WrittenWf w) :
    WrittenWf (insertAddress a w) := by
  refine ⟨?_, fun b hb => ?_⟩
  · have h := hw.1
    clear hw
    induction w with
    | nil => simp [insertAddress]
    | cons k rest ih =>
      have h' := List.pairwise_cons.1 h
      unfold insertAddress
      split_ifs with h1 h2
      · refine List.pairwise_cons.2 ⟨fun d hd => ?_, h⟩
        rcases List.mem_cons.1 hd with rfl | hd
        · exact h1
        · exact Nat.lt_trans h1 (h'.1 d hd)
      · exact h
      · refine List.pairwise_cons.2 ⟨fun d hd => ?_, ih h'.2⟩
        rcases mem_insertAddress.1 hd with rfl | hd
        · omega
        · exact h'.1 d hd
  · rcases mem_insertAddress.1 hb with rfl | hb
    · exact ha
    · exact hw.2 b hb

end Sys2Proof.Machine
end

