-- ==== Sys2Proof/Laws/State.lean ====
section
/-! SUPPORT. What each update of the state does to each field: one lemma per field per update, all by rfl. -/

namespace Sys2Proof.Machine

section setReg

variable (s : State) (i : RegIndex) (v : Byte)

@[simp] theorem State.regs_setReg : (s.setReg i v).regs = s.regs.set i.val v := rfl
@[simp] theorem State.pc_setReg : (s.setReg i v).pc = s.pc := rfl
@[simp] theorem State.fl_setReg : (s.setReg i v).fl = s.fl := rfl
@[simp] theorem State.run_setReg : (s.setReg i v).run = s.run := rfl
@[simp] theorem State.halt_setReg : (s.setReg i v).halt = s.halt := rfl
@[simp] theorem State.ir_setReg : (s.setReg i v).ir = s.ir := rfl
@[simp] theorem State.opA_setReg : (s.setReg i v).opA = s.opA := rfl
@[simp] theorem State.opB_setReg : (s.setReg i v).opB = s.opB := rfl
@[simp] theorem State.mem_setReg : (s.setReg i v).mem = s.mem := rfl
@[simp] theorem State.out_setReg : (s.setReg i v).out = s.out := rfl
@[simp] theorem State.written_setReg : (s.setReg i v).written = s.written := rfl
@[simp] theorem State.params_setReg : (s.setReg i v).params = s.params := rfl

end setReg

section advance

variable (s : State) (n : Nat)

@[simp] theorem State.regs_advance : (s.advance n).regs = s.regs := rfl
@[simp] theorem State.pc_advance : (s.advance n).pc = s.pc + BitVec.ofNat 9 n := rfl
@[simp] theorem State.fl_advance : (s.advance n).fl = s.fl := rfl
@[simp] theorem State.run_advance : (s.advance n).run = s.run := rfl
@[simp] theorem State.halt_advance : (s.advance n).halt = s.halt := rfl
@[simp] theorem State.ir_advance : (s.advance n).ir = s.ir := rfl
@[simp] theorem State.opA_advance : (s.advance n).opA = s.opA := rfl
@[simp] theorem State.opB_advance : (s.advance n).opB = s.opB := rfl
@[simp] theorem State.mem_advance : (s.advance n).mem = s.mem := rfl
@[simp] theorem State.out_advance : (s.advance n).out = s.out := rfl
@[simp] theorem State.written_advance : (s.advance n).written = s.written := rfl
@[simp] theorem State.params_advance : (s.advance n).params = s.params := rfl
@[simp] theorem State.reg_advance (k : RegIndex) : (s.advance n).reg k = s.reg k := rfl

end advance

section jump

variable (s : State) (v : Byte)

@[simp] theorem State.regs_jump : (s.jump v).regs = s.regs := rfl
@[simp] theorem State.pc_jump : (s.jump v).pc = v.setWidth 9 := rfl
@[simp] theorem State.fl_jump : (s.jump v).fl = s.fl := rfl
@[simp] theorem State.run_jump : (s.jump v).run = s.run := rfl
@[simp] theorem State.halt_jump : (s.jump v).halt = s.halt := rfl
@[simp] theorem State.ir_jump : (s.jump v).ir = s.ir := rfl
@[simp] theorem State.opA_jump : (s.jump v).opA = s.opA := rfl
@[simp] theorem State.opB_jump : (s.jump v).opB = s.opB := rfl
@[simp] theorem State.mem_jump : (s.jump v).mem = s.mem := rfl
@[simp] theorem State.out_jump : (s.jump v).out = s.out := rfl
@[simp] theorem State.written_jump : (s.jump v).written = s.written := rfl
@[simp] theorem State.params_jump : (s.jump v).params = s.params := rfl
@[simp] theorem State.reg_jump (k : RegIndex) : (s.jump v).reg k = s.reg k := rfl

end jump

section setFl

variable (s : State) (v : Byte)

@[simp] theorem State.regs_setFl : (s.setFl v).regs = s.regs := rfl
@[simp] theorem State.pc_setFl : (s.setFl v).pc = s.pc := rfl
@[simp] theorem State.fl_setFl : (s.setFl v).fl = v := rfl
@[simp] theorem State.run_setFl : (s.setFl v).run = s.run := rfl
@[simp] theorem State.halt_setFl : (s.setFl v).halt = s.halt := rfl
@[simp] theorem State.ir_setFl : (s.setFl v).ir = s.ir := rfl
@[simp] theorem State.opA_setFl : (s.setFl v).opA = s.opA := rfl
@[simp] theorem State.opB_setFl : (s.setFl v).opB = s.opB := rfl
@[simp] theorem State.mem_setFl : (s.setFl v).mem = s.mem := rfl
@[simp] theorem State.out_setFl : (s.setFl v).out = s.out := rfl
@[simp] theorem State.written_setFl : (s.setFl v).written = s.written := rfl
@[simp] theorem State.params_setFl : (s.setFl v).params = s.params := rfl
@[simp] theorem State.reg_setFl (k : RegIndex) : (s.setFl v).reg k = s.reg k := rfl

end setFl

section emit

variable (s : State) (e : OutEvent)

@[simp] theorem State.regs_emit : (s.emit e).regs = s.regs := rfl
@[simp] theorem State.pc_emit : (s.emit e).pc = s.pc := rfl
@[simp] theorem State.fl_emit : (s.emit e).fl = s.fl := rfl
@[simp] theorem State.run_emit : (s.emit e).run = s.run := rfl
@[simp] theorem State.halt_emit : (s.emit e).halt = s.halt := rfl
@[simp] theorem State.ir_emit : (s.emit e).ir = s.ir := rfl
@[simp] theorem State.opA_emit : (s.emit e).opA = s.opA := rfl
@[simp] theorem State.opB_emit : (s.emit e).opB = s.opB := rfl
@[simp] theorem State.mem_emit : (s.emit e).mem = s.mem := rfl
@[simp] theorem State.out_emit : (s.emit e).out = s.out ++ [e] := rfl
@[simp] theorem State.written_emit : (s.emit e).written = s.written := rfl
@[simp] theorem State.params_emit : (s.emit e).params = s.params := rfl
@[simp] theorem State.reg_emit (k : RegIndex) : (s.emit e).reg k = s.reg k := rfl

end emit

section stop

variable (s : State) (r : HaltReason)

@[simp] theorem State.regs_stop : (s.stop r).regs = s.regs := rfl
@[simp] theorem State.pc_stop : (s.stop r).pc = s.pc := rfl
@[simp] theorem State.fl_stop : (s.stop r).fl = s.fl := rfl
@[simp] theorem State.run_stop : (s.stop r).run = .halted := rfl
@[simp] theorem State.halt_stop : (s.stop r).halt = r := rfl
@[simp] theorem State.ir_stop : (s.stop r).ir = s.ir := rfl
@[simp] theorem State.opA_stop : (s.stop r).opA = s.opA := rfl
@[simp] theorem State.opB_stop : (s.stop r).opB = s.opB := rfl
@[simp] theorem State.mem_stop : (s.stop r).mem = s.mem := rfl
@[simp] theorem State.out_stop : (s.stop r).out = s.out := rfl
@[simp] theorem State.written_stop : (s.stop r).written = s.written := rfl
@[simp] theorem State.params_stop : (s.stop r).params = s.params := rfl
@[simp] theorem State.reg_stop (k : RegIndex) : (s.stop r).reg k = s.reg k := rfl

end stop

section decSp

variable (s : State) 

@[simp] theorem State.regs_decSp : (s.decSp).regs = s.regs.set spIndex.val (s.reg spIndex - 1) := rfl
@[simp] theorem State.pc_decSp : (s.decSp).pc = s.pc := rfl
@[simp] theorem State.fl_decSp : (s.decSp).fl = s.fl := rfl
@[simp] theorem State.run_decSp : (s.decSp).run = s.run := rfl
@[simp] theorem State.halt_decSp : (s.decSp).halt = s.halt := rfl
@[simp] theorem State.ir_decSp : (s.decSp).ir = s.ir := rfl
@[simp] theorem State.opA_decSp : (s.decSp).opA = s.opA := rfl
@[simp] theorem State.opB_decSp : (s.decSp).opB = s.opB := rfl
@[simp] theorem State.mem_decSp : (s.decSp).mem = s.mem := rfl
@[simp] theorem State.out_decSp : (s.decSp).out = s.out := rfl
@[simp] theorem State.written_decSp : (s.decSp).written = s.written := rfl
@[simp] theorem State.params_decSp : (s.decSp).params = s.params := rfl

end decSp

section incSp

variable (s : State) 

@[simp] theorem State.regs_incSp : (s.incSp).regs = s.regs.set spIndex.val (s.reg spIndex + 1) := rfl
@[simp] theorem State.pc_incSp : (s.incSp).pc = s.pc := rfl
@[simp] theorem State.fl_incSp : (s.incSp).fl = s.fl := rfl
@[simp] theorem State.run_incSp : (s.incSp).run = s.run := rfl
@[simp] theorem State.halt_incSp : (s.incSp).halt = s.halt := rfl
@[simp] theorem State.ir_incSp : (s.incSp).ir = s.ir := rfl
@[simp] theorem State.opA_incSp : (s.incSp).opA = s.opA := rfl
@[simp] theorem State.opB_incSp : (s.incSp).opB = s.opB := rfl
@[simp] theorem State.mem_incSp : (s.incSp).mem = s.mem := rfl
@[simp] theorem State.out_incSp : (s.incSp).out = s.out := rfl
@[simp] theorem State.written_incSp : (s.incSp).written = s.written := rfl
@[simp] theorem State.params_incSp : (s.incSp).params = s.params := rfl

end incSp

section latched

variable (s : State) (op a b : Byte)

@[simp] theorem State.regs_latched : (s.latched op a b).regs = s.regs := rfl
@[simp] theorem State.pc_latched : (s.latched op a b).pc = s.pc := rfl
@[simp] theorem State.fl_latched : (s.latched op a b).fl = s.fl := rfl
@[simp] theorem State.run_latched : (s.latched op a b).run = s.run := rfl
@[simp] theorem State.halt_latched : (s.latched op a b).halt = s.halt := rfl
@[simp] theorem State.ir_latched : (s.latched op a b).ir = op := rfl
@[simp] theorem State.opA_latched : (s.latched op a b).opA = a := rfl
@[simp] theorem State.opB_latched : (s.latched op a b).opB = b := rfl
@[simp] theorem State.mem_latched : (s.latched op a b).mem = s.mem := rfl
@[simp] theorem State.out_latched : (s.latched op a b).out = s.out := rfl
@[simp] theorem State.written_latched : (s.latched op a b).written = s.written := rfl
@[simp] theorem State.params_latched : (s.latched op a b).params = s.params := rfl
@[simp] theorem State.reg_latched (k : RegIndex) : (s.latched op a b).reg k = s.reg k := rfl

end latched

/-- A register read after a register write (R7). -/
theorem State.reg_setReg (s : State) (i k : RegIndex) (v : Byte) :
    (s.setReg i v).reg k = if k = i then v else s.reg k := by
  rcases s with ⟨regs⟩
  by_cases h : k = i
  · subst h; simp [State.reg, State.setReg]
  · have : i.val ≠ k.val := fun e => h (Fin.ext e.symm)
    simp [State.reg, State.setReg, h, Vector.getElem_set_ne, this]

@[simp] theorem State.reg_setReg_self (s : State) (i : RegIndex) (v : Byte) : (s.setReg i v).reg i = v := by
  simp [State.reg_setReg]

theorem State.reg_setReg_of_ne (s : State) {i k : RegIndex} (v : Byte) (h : k ≠ i) : (s.setReg i v).reg k = s.reg k := by
  simp [State.reg_setReg, h]

@[simp] theorem State.reg_decSp_sp (s : State) : s.decSp.reg spIndex = s.reg spIndex - 1 := by
  simp [State.decSp]

theorem State.reg_decSp_of_ne (s : State) {k : RegIndex} (h : k ≠ spIndex) : s.decSp.reg k = s.reg k :=
  State.reg_setReg_of_ne s _ h

@[simp] theorem State.reg_incSp_sp (s : State) : s.incSp.reg spIndex = s.reg spIndex + 1 := by
  simp [State.incSp]

theorem State.reg_incSp_of_ne (s : State) {k : RegIndex} (h : k ≠ spIndex) : s.incSp.reg k = s.reg k :=
  State.reg_setReg_of_ne s _ h

end Sys2Proof.Machine
end

