-- ==== Sys2Proof/Laws/Ops.lean ====
section
/-! SUPPORT. One lemma per shared operation that says once everything it can answer, for proofs to cite in place of its
definition. -/

namespace Sys2Proof.Machine

/-! ## Register operands (R21) -/

@[simp] theorem regIndex_regByte (i : RegIndex) : regIndex (regByte i) = some i := by
  revert i; decide

/-- An operand byte names a register exactly when it is 0 to 7. -/
theorem regIndex_eq_none {a : Byte} : regIndex a = none ↔ 7 < a.toNat := by
  unfold regIndex
  split_ifs with h <;> simp <;> omega

/-- The register an operand byte names has that number. -/
theorem regIndex_eq_some {a : Byte} {i : RegIndex} : regIndex a = some i ↔ a = regByte i := by
  constructor
  · intro h
    unfold regIndex at h
    split_ifs at h with ha
    cases h
    exact BitVec.eq_of_toNat_eq (by simp; omega)
  · rintro rfl; exact regIndex_regByte i

@[simp] theorem withReg_regByte (i : RegIndex) (s : State) (k : RegIndex → Result) :
    withReg (regByte i) s k = k i := by
  simp [withReg]

@[simp] theorem withRegs_regByte (i j : RegIndex) (s : State) (k : RegIndex → RegIndex → Result) :
    withRegs (regByte i) (regByte j) s k = k i j := by
  simp [withRegs]

/-- A bad register operand raises. -/
theorem withReg_bad {a : Byte} (h : 7 < a.toNat) (s : State) (k : RegIndex → Result) :
    withReg a s k = raise (.outOfBounds (.register a)) s := by
  simp [withReg, regIndex_eq_none.2 h]

/-- All that a checked register operand can do. -/
theorem withReg_cases (a : Byte) (s : State) (k : RegIndex → Result) :
    (∃ i, a = regByte i ∧ withReg a s k = k i) ∨
    (7 < a.toNat ∧ withReg a s k = .next (s.stop (.outOfBounds (.register a)))) := by
  rcases h : regIndex a with _ | i
  · exact .inr ⟨regIndex_eq_none.1 h, by simp [withReg, h, raise]⟩
  · exact .inl ⟨i, regIndex_eq_some.1 h, by simp [withReg, h]⟩

/-! ## Memory accesses (R42, R43, R47, R53) -/

/-- All that a byte read can do. -/
theorem readByte_cases (a : Nat) (s : State) (k : Byte → Result) :
    (∃ v, s.mem.read a = some v ∧ readByte a s k = k v) ∨
    (255 < a ∧ readByte a s k = .next (s.stop (.outOfBounds (.memory a)))) := by
  by_cases h : 255 < a
  · exact .inr ⟨h, by simp [readByte, Memory.read_of_lt _ h, raise]⟩
  · exact .inl ⟨_, s.mem.read_of_le (Nat.not_lt.1 h), by simp [readByte, s.mem.read_of_le (Nat.not_lt.1 h)]⟩

/-- A read at an 8-bit address goes on with the byte there. -/
@[simp] theorem readByte_byte (v : Byte) (s : State) (k : Byte → Result) :
    readByte v.toNat s k = k (cellAt s.mem.cells v.toNat) := by
  simp [readByte, Memory.read_byte]

/-- The state after a store of ST, PUSH or CALL at an 8-bit address. -/
def State.stored (s : State) (a : Byte) (v : Nat) : State :=
  { s with
    mem := ⟨setCell s.mem.cells a.toNat (BitVec.ofNat 8 v)⟩
    written := insertAddress a.toNat s.written }

/-- A write at an 8-bit address cannot raise (R47). -/
theorem Memory.write_byte (m : Memory) (a : Byte) (v : Nat) :
    m.write a.toNat v = some ⟨setCell m.cells a.toNat (BitVec.ofNat 8 v)⟩ := by
  simp [Memory.write, Nat.not_lt.2 (Nat.le_of_lt_succ a.isLt)]

/-- A store at an 8-bit address goes on from the stored state: it cannot raise (R47). -/
@[simp] theorem storeByte_byte (a : Byte) (v : Nat) (s : State) (k : State → Result) :
    storeByte a.toNat v s k = k (s.stored a v) := by
  simp [storeByte, Memory.write_byte, State.stored]

section stored

variable (s : State) (a : Byte) (v : Nat)

@[simp] theorem State.regs_stored : (s.stored a v).regs = s.regs := rfl
@[simp] theorem State.reg_stored (k : RegIndex) : (s.stored a v).reg k = s.reg k := rfl
@[simp] theorem State.pc_stored : (s.stored a v).pc = s.pc := rfl
@[simp] theorem State.fl_stored : (s.stored a v).fl = s.fl := rfl
@[simp] theorem State.run_stored : (s.stored a v).run = s.run := rfl
@[simp] theorem State.halt_stored : (s.stored a v).halt = s.halt := rfl
@[simp] theorem State.ir_stored : (s.stored a v).ir = s.ir := rfl
@[simp] theorem State.opA_stored : (s.stored a v).opA = s.opA := rfl
@[simp] theorem State.opB_stored : (s.stored a v).opB = s.opB := rfl
@[simp] theorem State.out_stored : (s.stored a v).out = s.out := rfl
@[simp] theorem State.params_stored : (s.stored a v).params = s.params := rfl
@[simp] theorem State.written_stored : (s.stored a v).written = insertAddress a.toNat s.written := rfl

/-- Every address reads as before but the stored one, which reads as the low byte of the value (R43). -/
theorem State.read_stored (h : s.mem.wf) (b : Nat) :
    (s.stored a v).mem.read b = if a.toNat = b then some (BitVec.ofNat 8 v) else s.mem.read b :=
  Memory.read_write h (Memory.write_byte s.mem a v) b

/-- A store keeps the canonical form of memory. -/
theorem State.memWf_stored (h : s.mem.wf) : (s.stored a v).mem.wf :=
  Memory.wf_write h (Memory.write_byte s.mem a v)

/-- A store keeps the form of W. -/
theorem State.writtenWf_stored (h : WrittenWf s.written) : WrittenWf (s.stored a v).written :=
  writtenWf_insertAddress a.isLt h

end stored

/-! ## The step -/

/-- All that a fetch can do: go on with the latches loaded from pc, pc + 1, pc + 2, or raise for the first address above
255, with the latches read before it loaded (R62, R206). -/
theorem fetch_cases (s : State) (k : State → Result) :
    (∃ op a b, s.mem.read s.pc.toNat = some op ∧ s.mem.read (s.pc.toNat + 1) = some a ∧
      s.mem.read (s.pc.toNat + 2) = some b ∧ fetch s k = k (s.latched op a b)) ∨
    (253 < s.pc.toNat ∧ ∃ op a,
      fetch s k = .next ((s.latched op a s.opB).stop (.outOfBounds (.memory (max s.pc.toNat 256))))) := by
  by_cases h0 : 255 < s.pc.toNat
  · refine .inr ⟨by omega, s.ir, s.opA, ?_⟩
    simp [fetch, readByte, Memory.read_of_lt _ h0, raise, Nat.max_eq_left (Nat.succ_le_of_lt h0), State.latched, State.stop]
  · by_cases h1 : 255 < s.pc.toNat + 1
    · have e : s.pc.toNat = 255 := by omega
      refine .inr ⟨by omega, cellAt s.mem.cells s.pc.toNat, s.opA, ?_⟩
      simp [fetch, readByte, Memory.read, raise, e, State.latched, State.stop]
    · by_cases h2 : 255 < s.pc.toNat + 2
      · have e : s.pc.toNat = 254 := by omega
        refine .inr ⟨by omega, cellAt s.mem.cells s.pc.toNat, cellAt s.mem.cells (s.pc.toNat + 1), ?_⟩
        simp [fetch, readByte, Memory.read, raise, e, State.latched, State.stop]
      · refine .inl ⟨_, _, _, s.mem.read_of_le (by omega), s.mem.read_of_le (by omega), s.mem.read_of_le (by omega), ?_⟩
        simp only [fetch, readByte, s.mem.read_of_le (show s.pc.toNat ≤ 255 by omega),
          s.mem.read_of_le (show s.pc.toNat + 1 ≤ 255 by omega), s.mem.read_of_le (show s.pc.toNat + 2 ≤ 255 by omega)]
        rfl

/-- A halted block does nothing (R26). -/
theorem step_halted {s : State} (h : s.run = .halted) : step s = .next s := by
  simp [step, h]

/-- A running block fetches and issues (R61). -/
theorem step_running {s : State} (h : s.run = .running) : step s = fetch s issue := by
  simp [step, h, stepRunning]

/-- A step uses a written byte exactly when one of the `width` bytes from `p` on is in W (R53). -/
theorem usesWritten_iff {s : State} {p width : Nat} :
    usesWritten s p width = true ↔ ∃ k < width, p + k ∈ s.written := by
  simp [usesWritten, usedAddresses]

/-- All that decode and execution can do with the latches loaded (R53, R61, R71). -/
theorem issue_cases (s : State) :
    (usesWritten s s.pc.toNat (usedWidth s.params.opcodeMap s.ir) = true ∧ issue s = .refused .selfModifyingCode) ∨
    (usesWritten s s.pc.toNat (usedWidth s.params.opcodeMap s.ir) = false ∧
      s.params.opcodeMap.lookup s.ir = none ∧ issue s = .next (s.stop (.unknownOpcode s.ir))) ∨
    (usesWritten s s.pc.toNat (usedWidth s.params.opcodeMap s.ir) = false ∧
      ∃ m, s.params.opcodeMap.lookup s.ir = some m ∧ issue s = exec (m.build s.opA s.opB) s) := by
  unfold issue usedWidth OpcodeMap.decodeLatched
  rcases s.params.opcodeMap.lookup s.ir with _ | m
  · by_cases h : usesWritten s s.pc.toNat 1 = true <;> simp [h, raise]
  · by_cases h : usesWritten s s.pc.toNat m.width = true <;> simp [h, Instr.mnemonic_build]

end Sys2Proof.Machine
end

