-- ==== Sys2Proof/Laws/Exec.lean ====
section
/-! SUPPORT. What each instruction answers, one equation per constructor of Instr, with its register operands in range; and what
a bad register operand answers. Proofs cite these in place of unfolding `exec`. -/

namespace Sys2Proof.Machine

variable (s : State) (i j : RegIndex) (a b : Byte)

theorem exec_hlt : exec .hlt s = .next (s.stop .hlt) := rfl

theorem exec_nop : exec .nop s = .next (s.advance 1) := rfl

theorem exec_ldi : exec (.ldi (regByte i) b) s = .next ((s.setReg i b).advance 3) := by
  simp [exec, execLdi]

theorem exec_ld : exec (.ld (regByte i) (regByte j)) s =
    .next ((s.setReg i (cellAt s.mem.cells (s.reg j).toNat)).advance 3) := by
  simp [exec, execLd]

theorem exec_st : exec (.st a b) s = .next ((s.stored a b.toNat).advance 3) := by
  simp [exec, execSt]

theorem exec_prn : exec (.prn (regByte i)) s = .next ((s.emit (.dec (s.reg i))).advance 2) := by
  simp [exec, execPrn]

theorem exec_pra : exec (.pra (regByte i)) s =
    .next ((s.emit (.char (s.reg i))).advance (praAdvanceBytes s.params.praAdvance)) := by
  simp [exec, execPra]

theorem exec_push : exec (.push (regByte i)) s =
    .next ((s.decSp.stored (s.decSp.reg spIndex) (s.decSp.reg i).toNat).advance 2) := by
  simp [exec, execPush, pushByte, -State.reg_decSp_sp]

theorem exec_pop : exec (.pop (regByte i)) s =
    .next ((s.setReg i (cellAt s.mem.cells (s.reg spIndex).toNat)).incSp.advance 2) := by
  simp [exec, execPop]

theorem exec_call : exec (.call (regByte i)) s =
    .next ((s.decSp.stored (s.decSp.reg spIndex) (s.pc.toNat + 2)).jump (s.decSp.reg i)) := by
  simp [exec, execCall, pushByte, -State.reg_decSp_sp]

theorem exec_ret : exec .ret s = .next (s.incSp.jump (cellAt s.mem.cells (s.reg spIndex).toNat)) := by
  simp [exec, execRet]

theorem exec_jmp : exec (.jmp (regByte i)) s = .next (s.jump (s.reg i)) := by
  simp [exec, execJmp]

theorem exec_jeq : exec (.jeq (regByte i)) s = .next (if s.condEq then s.jump (s.reg i) else s.advance 2) := by
  simp [exec, execJeq, jumpIf]

theorem exec_jne : exec (.jne (regByte i)) s = .next (if s.condNe then s.jump (s.reg i) else s.advance 2) := by
  simp [exec, execJne, jumpIf]

theorem exec_jgt : exec (.jgt (regByte i)) s = .next (if s.condGt then s.jump (s.reg i) else s.advance 2) := by
  simp [exec, execJgt, jumpIf]

theorem exec_jlt : exec (.jlt (regByte i)) s = .next (if s.condLt then s.jump (s.reg i) else s.advance 2) := by
  simp [exec, execJlt, jumpIf]

theorem exec_jge : exec (.jge (regByte i)) s = .next (if s.condGe then s.jump (s.reg i) else s.advance 2) := by
  simp [exec, execJge, jumpIf]

theorem exec_jle : exec (.jle (regByte i)) s = .next (if s.condLe then s.jump (s.reg i) else s.advance 2) := by
  simp [exec, execJle, jumpIf]

theorem exec_add : exec (.add (regByte i) (regByte j)) s =
    .next ((s.setReg i (BitVec.ofNat 8 ((s.reg i).toNat + (s.reg j).toNat))).advance 3) := by
  simp only [exec, execAdd, execBinary, withRegs_regByte, aluBinary, applyAlu]

theorem exec_sub : exec (.sub (regByte i) (regByte j)) s =
    .next ((s.setReg i (BitVec.ofInt 8 ((s.reg i).toNat - (s.reg j).toNat))).advance 3) := by
  simp only [exec, execSub, execBinary, withRegs_regByte, aluBinary, applyAlu]

theorem exec_mul : exec (.mul (regByte i) (regByte j)) s =
    .next ((s.setReg i (BitVec.ofNat 8 ((s.reg i).toNat * (s.reg j).toNat))).advance 3) := by
  simp only [exec, execMul, execBinary, withRegs_regByte, aluBinary, applyAlu]

theorem exec_and : exec (.and (regByte i) (regByte j)) s =
    .next ((s.setReg i (s.reg i &&& s.reg j)).advance 3) := by
  simp only [exec, execAnd, execBinary, withRegs_regByte, aluBinary, applyAlu]

theorem exec_or : exec (.or (regByte i) (regByte j)) s =
    .next ((s.setReg i (s.reg i ||| s.reg j)).advance 3) := by
  simp only [exec, execOr, execBinary, withRegs_regByte, aluBinary, applyAlu]

theorem exec_xor : exec (.xor (regByte i) (regByte j)) s =
    .next ((s.setReg i (s.reg i ^^^ s.reg j)).advance 3) := by
  simp only [exec, execXor, execBinary, withRegs_regByte, aluBinary, applyAlu]

theorem exec_shl : exec (.shl (regByte i) (regByte j)) s =
    .next ((s.setReg i (BitVec.ofNat 8 ((s.reg i).toNat * 2 ^ (s.reg j).toNat))).advance 3) := by
  simp only [exec, execShl, execBinary, withRegs_regByte, aluBinary, applyAlu]

theorem exec_shr : exec (.shr (regByte i) (regByte j)) s =
    .next ((s.setReg i (BitVec.ofNat 8 ((s.reg i).toNat / 2 ^ (s.reg j).toNat))).advance 3) := by
  simp only [exec, execShr, execBinary, withRegs_regByte, aluBinary, applyAlu]

theorem exec_div (h : s.reg j ≠ 0) : exec (.div (regByte i) (regByte j)) s =
    .next ((s.setReg i (BitVec.ofNat 8 ((s.reg i).toNat / (s.reg j).toNat))).advance 3) := by
  have : (s.reg j).toNat ≠ 0 := fun e => h (BitVec.eq_of_toNat_eq e)
  simp only [exec, execDiv, execBinary, withRegs_regByte, aluBinary, applyAlu, this, if_false]

theorem exec_div_zero (h : s.reg j = 0) : exec (.div (regByte i) (regByte j)) s =
    .next (s.stop (.divisionByZero (regByte i) (regByte j))) := by
  have : (s.reg j).toNat = 0 := by rw [h]; rfl
  simp only [exec, execDiv, execBinary, withRegs_regByte, aluBinary, applyAlu, this, if_true, raise]

theorem exec_mod (h : s.reg j ≠ 0) : exec (.mod (regByte i) (regByte j)) s =
    .next ((s.setReg i (BitVec.ofNat 8 ((s.reg i).toNat % (s.reg j).toNat))).advance 3) := by
  have : (s.reg j).toNat ≠ 0 := fun e => h (BitVec.eq_of_toNat_eq e)
  simp only [exec, execMod, execBinary, withRegs_regByte, aluBinary, applyAlu, this, if_false]

theorem exec_mod_zero (h : s.reg j = 0) : exec (.mod (regByte i) (regByte j)) s =
    .next (s.stop (.moduloByZero (regByte i) (regByte j))) := by
  have : (s.reg j).toNat = 0 := by rw [h]; rfl
  simp only [exec, execMod, execBinary, withRegs_regByte, aluBinary, applyAlu, this, if_true, raise]

theorem exec_cmp : exec (.cmp (regByte i) (regByte j)) s =
    .next ((s.setFl (compareFlags (s.reg i) (s.reg j))).advance 3) := by
  simp only [exec, execCmp, execBinary, withRegs_regByte, aluBinary, applyAlu]

theorem exec_inc : exec (.inc (regByte i) b) s =
    .next ((s.setReg i (BitVec.ofNat 8 ((s.reg i).toNat + 1))).advance 3) := by
  simp only [exec, execInc, execUnary, withReg_regByte, aluUnary, applyAlu]

theorem exec_dec : exec (.dec (regByte i) b) s =
    .next ((s.setReg i (BitVec.ofInt 8 ((s.reg i).toNat - 1))).advance 3) := by
  simp only [exec, execDec, execUnary, withReg_regByte, aluUnary, applyAlu]

theorem exec_not : exec (.not (regByte i) b) s = .next (s.advance 3) := by
  simp only [exec, execNot, execUnary, withReg_regByte, aluUnary, applyAlu]

/-- A first operand that names no register raises, for every form whose a is a register (R21). -/
theorem exec_bad_first {a : Byte} (h : 7 < a.toNat) {i : Instr} (hi : i.operands.head? = some a)
    (hr : (i.mnemonic.roles.map Role.isReg).head? = some true) :
    exec i s = .next (s.stop (.outOfBounds (.register a))) := by
  cases i <;> simp_all [Instr.operands, Instr.mnemonic, Mnemonic.roles, Role.isReg] <;> subst hi
  all_goals
    simp only [exec, execLdi, execLd, execPrn, execPra, execPush, execPop, execCall, execJmp, execJeq, execJne, execJgt,
      execJlt, execJge, execJle, execAdd, execSub, execMul, execDiv, execMod, execAnd, execOr, execXor, execShl, execShr,
      execCmp, execInc, execDec, execNot, execUnary, execBinary, jumpIf, withRegs, withReg_bad h, raise]

/-- A second operand that names no register raises, for every form whose b is a register, once a is in range (R21). -/
theorem exec_bad_second {a : RegIndex} {b : Byte} (h : 7 < b.toNat) {i : Instr} (hi : i.operands = [regByte a, b])
    (hr : i.mnemonic.roles.map Role.isReg = [true, true]) :
    exec i s = .next (s.stop (.outOfBounds (.register b))) := by
  cases i <;> simp_all [Instr.operands, Instr.mnemonic, Mnemonic.roles, Role.isReg]
  all_goals
    obtain ⟨rfl, rfl⟩ := hi
    simp only [exec, execLd, execAdd, execSub, execMul, execDiv, execMod, execAnd, execOr, execXor, execShl, execShr,
      execCmp, execBinary, withRegs, withReg_regByte, withReg_bad h, raise]

end Sys2Proof.Machine
end

