-- ==== Sys2Proof/Laws/PerInstr.lean ====
section
/-! SUPPORT. A family of statements about instructions as syntax, one lemma per constructor. -/

namespace Sys2Proof.Laws.EncodeLength

/-- Under every map the encoding is one opcode byte and the operands, as long as the width column says (R60, R65). -/
def Statement (i : Instr) : Prop := ∀ map : OpcodeMap, (map.encode i).length = i.mnemonic.width

theorem hlt : Statement (.hlt) := fun _ => rfl
theorem ldi (a b : Byte) : Statement (.ldi a b) := fun _ => rfl
theorem ld (a b : Byte) : Statement (.ld a b) := fun _ => rfl
theorem st (a b : Byte) : Statement (.st a b) := fun _ => rfl
theorem prn (a : Byte) : Statement (.prn a) := fun _ => rfl
theorem pra (a : Byte) : Statement (.pra a) := fun _ => rfl
theorem push (a : Byte) : Statement (.push a) := fun _ => rfl
theorem pop (a : Byte) : Statement (.pop a) := fun _ => rfl
theorem call (a : Byte) : Statement (.call a) := fun _ => rfl
theorem ret : Statement (.ret) := fun _ => rfl
theorem jmp (a : Byte) : Statement (.jmp a) := fun _ => rfl
theorem jeq (a : Byte) : Statement (.jeq a) := fun _ => rfl
theorem jne (a : Byte) : Statement (.jne a) := fun _ => rfl
theorem jgt (a : Byte) : Statement (.jgt a) := fun _ => rfl
theorem jlt (a : Byte) : Statement (.jlt a) := fun _ => rfl
theorem jge (a : Byte) : Statement (.jge a) := fun _ => rfl
theorem jle (a : Byte) : Statement (.jle a) := fun _ => rfl
theorem add (a b : Byte) : Statement (.add a b) := fun _ => rfl
theorem sub (a b : Byte) : Statement (.sub a b) := fun _ => rfl
theorem mul (a b : Byte) : Statement (.mul a b) := fun _ => rfl
theorem div (a b : Byte) : Statement (.div a b) := fun _ => rfl
theorem mod (a b : Byte) : Statement (.mod a b) := fun _ => rfl
theorem and (a b : Byte) : Statement (.and a b) := fun _ => rfl
theorem or (a b : Byte) : Statement (.or a b) := fun _ => rfl
theorem xor (a b : Byte) : Statement (.xor a b) := fun _ => rfl
theorem shl (a b : Byte) : Statement (.shl a b) := fun _ => rfl
theorem shr (a b : Byte) : Statement (.shr a b) := fun _ => rfl
theorem cmp (a b : Byte) : Statement (.cmp a b) := fun _ => rfl
theorem inc (a b : Byte) : Statement (.inc a b) := fun _ => rfl
theorem dec (a b : Byte) : Statement (.dec a b) := fun _ => rfl
theorem not (a b : Byte) : Statement (.not a b) := fun _ => rfl
theorem nop : Statement (.nop) := fun _ => rfl

end Sys2Proof.Laws.EncodeLength
end

