-- ==== Sys2Proof/Laws/Run.lean ====
section
/-! SUPPORT. Runs of the machine, one step at a time. -/

namespace Sys2Proof.Machine

/-- A run goes on from the next state of its first step. -/
theorem run_succ_of_next {s t : State} (h : step s = .next t) (n : Nat) :
    Host.Core.run Sys2Proof.core (n + 1) s = Host.Core.run Sys2Proof.core n t := by
  have e : Sys2Proof.core.step s = .next t := h
  simp only [Host.Core.run, e]

/-- A run of more than one step that answers a next state took a first step and then the rest. -/
theorem run_succ_next {s t : State} {n : Nat} (h : Host.Core.run Sys2Proof.core (n + 1) s = .next t) :
    ∃ u, step s = .next u ∧ Host.Core.run Sys2Proof.core n u = .next t := by
  rcases hs : step s with u | r | r
  · exact ⟨u, rfl, by rw [run_succ_of_next hs] at h; exact h⟩
  · cases r
  · have e : Sys2Proof.core.step s = .refused r := hs
    simp only [Host.Core.run, e] at h
    cases h

/-- A property that every step keeps holds at the end of every run that starts in it. -/
theorem run_induction {P : State → Prop} (hstep : ∀ s t, P s → step s = .next t → P t) :
    ∀ (n : Nat) (s t : State), P s → Host.Core.run Sys2Proof.core n s = .next t → P t
  | 0, _, _, hs, h => by cases h; exact hs
  | n + 1, s, t, hs, h => by
    obtain ⟨u, hu, h⟩ := run_succ_next h
    exact run_induction hstep n u t (hstep s u hs hu) h

end Sys2Proof.Machine
end

