-- ==== Sys2Proof/Tests/Slice0.lean ====
section
/-! SUPPORT. The model's own tests. Expected values are those of spec/95_test_vectors.md (the section is named at each group)
and of the tables of spec/30_encoding.md; none is the model's own answer. Then a witness for the hypotheses of each
statement. -/

namespace Sys2Proof.Machine.Tests

/-! ## Helpers -/

/-- The reset state with an image, some registers set, and a pc. -/
def start (image : List Byte) (regs : List (RegIndex × Byte) := []) (pc : PcWord := 0) : State :=
  let s := regs.foldl (fun s (p : RegIndex × Byte) => s.setReg p.1 p.2) State.reset
  { s with mem := Memory.load ⟨[]⟩ pc.toNat image, pc := pc }

/-- The same with one more memory byte. -/
def startMem (image : List Byte) (regs : List (RegIndex × Byte)) (address : Nat) (v : Byte) : State :=
  let s := start image regs
  { s with mem := (s.mem.write address v.toNat).getD s.mem }

/-- `s` with `PRA_ADVANCE` = 2. -/
def advancing (s : State) : State := { s with params := { s.params with praAdvance := .advance } }

/-- The outcome is a next state with a property. -/
def nextWith (o : Result) (p : State → Bool) : Bool :=
  match o with
  | .next t => p t
  | .fault _ => false
  | .refused _ => false

/-- The outcome is the refusal of R53. -/
def isRefused (o : Result) : Bool :=
  match o with
  | .next _ => false
  | .fault _ => false
  | .refused r => r == .selfModifyingCode

/-! ## Well-formedness: an ill-formed term for each check, and the forms no check refuses -/

theorem test_illFormed_first : ¬ (Instr.ldi 8 0).WellFormed := by decide
theorem test_illFormed_second : ¬ (Instr.add 0 8).WellFormed := by decide
theorem test_illFormed_jump : ¬ (Instr.jeq 255).WellFormed := by decide
theorem test_wellFormed_st : (Instr.st 0xFF 0xFF).WellFormed := by decide
theorem test_wellFormed_ignored : (Instr.inc 7 0xFF).WellFormed := by decide

/-! ## Decoding: a word for every constructor, written out from the table of R70 and the formats of R60 -/

/-- The default map's decode of bytes that are one instruction. -/
def decodesTo (bytes : List Byte) (i : Instr) : Bool :=
  match OpcodeMap.default.decode bytes with
  | .ok (j, rest) => j == i && rest.isEmpty
  | .error _ => false

theorem test_decode_system : decodesTo [0b00000001] .hlt && decodesTo [0b00000000] .nop := by decide
theorem test_decode_loadStore :
    decodesTo [0b10000010, 0b00000001, 0b11001000] (.ldi 1 200) && decodesTo [0b10000011, 0b00000010, 0b00000011] (.ld 2 3) &&
    decodesTo [0b10000100, 0b10000000, 0b00101010] (.st 0x80 42) := by decide
theorem test_decode_output : decodesTo [0b01000111, 0b00000100] (.prn 4) && decodesTo [0b01001000, 0b00000101] (.pra 5) := by
  decide
theorem test_decode_stack : decodesTo [0b01000101, 0b00000110] (.push 6) && decodesTo [0b01000110, 0b00000111] (.pop 7) := by
  decide
theorem test_decode_control :
    decodesTo [0b01010000, 0b00000001] (.call 1) && decodesTo [0b00010001] .ret && decodesTo [0b01010100, 0b00000010] (.jmp 2) &&
    decodesTo [0b01010101, 0b00000011] (.jeq 3) && decodesTo [0b01010110, 0b00000100] (.jne 4) &&
    decodesTo [0b01010111, 0b00000101] (.jgt 5) && decodesTo [0b01011000, 0b00000110] (.jlt 6) &&
    decodesTo [0b01011010, 0b00000111] (.jge 7) && decodesTo [0b01011001, 0b00000000] (.jle 0) := by decide
theorem test_decode_arithmetic :
    decodesTo [0b10100000, 0b00000001, 0b00000010] (.add 1 2) && decodesTo [0b10100001, 0b00000001, 0b00000010] (.sub 1 2) &&
    decodesTo [0b10100010, 0b00000001, 0b00000010] (.mul 1 2) && decodesTo [0b10100011, 0b00000001, 0b00000010] (.div 1 2) &&
    decodesTo [0b10100100, 0b00000001, 0b00000010] (.mod 1 2) && decodesTo [0b10100111, 0b00000001, 0b00000010] (.cmp 1 2) := by
  decide
theorem test_decode_logic :
    decodesTo [0b10101000, 0b00000011, 0b00000100] (.and 3 4) && decodesTo [0b10101010, 0b00000011, 0b00000100] (.or 3 4) &&
    decodesTo [0b10101011, 0b00000011, 0b00000100] (.xor 3 4) && decodesTo [0b10101100, 0b00000011, 0b00000100] (.shl 3 4) &&
    decodesTo [0b10101101, 0b00000011, 0b00000100] (.shr 3 4) := by decide
theorem test_decode_unary :
    decodesTo [0b01100101, 0b00000101, 0b00000000] (.inc 5 0) && decodesTo [0b01100110, 0b00000101, 0b11111111] (.dec 5 255) &&
    decodesTo [0b01101001, 0b00000101, 0b00000001] (.not 5 1) := by decide
/-- L2.7: bytes of the published LS-8 that are unknown here; and bytes that end early. -/
theorem test_decode_refuses :
    (OpcodeMap.default.decode [0x52, 0, 0] matches .error (.unknownOpcode 0x52)) &&
    (OpcodeMap.default.decode [0x13] matches .error (.unknownOpcode 0x13)) &&
    (OpcodeMap.default.decode [0x82, 0] matches .error (.truncated .ldi)) &&
    (OpcodeMap.default.decode [] matches .error .noBytes) := by decide
/-- The encodings of the listings P1 and P3. -/
theorem test_encode :
    OpcodeMap.default.encode (.ldi 0 5) = [0x82, 0x00, 0x05] ∧ OpcodeMap.default.encode (.push 0) = [0x45, 0x00] ∧
    OpcodeMap.default.encode (.inc 0 0) = [0x65, 0x00, 0x00] ∧ OpcodeMap.default.encode .hlt = [0x01] := by decide
theorem test_tableWord :
    decodeTableWord 24 0x050082 = some (.ldi 0 5) ∧ decodeTableWord 8 0x82 = some (.ldi 0 0) ∧
    decodeTableWord 8 0x02 = none := by decide
theorem test_withFetchWord :
    nextWith (step (State.reset.withFetchWord 24 0x050082)) (fun t => t.reg 0 == 5 && t.pc == 3) := by decide

/-! ## Assembler: the listing of P3 -/

theorem test_assemble :
    (AsmLine.mk .inc [.reg 0]).assemble OpcodeMap.default = some [0x65, 0x00, 0x00] ∧
    (AsmLine.mk .ldi [.reg 2, .num 9]).assemble OpcodeMap.default = some [0x82, 0x02, 0x09] ∧
    (AsmLine.mk .ldi [.num 2, .num 9]).assemble OpcodeMap.default = none := by decide

/-! ## System (L2.1) -/

theorem test_hlt : nextWith (step (start [0x01] [] 253)) (fun t => t.run == .halted && t.halt == .hlt && t.status.code == 1) := by
  decide
theorem test_hlt_at_254 : nextWith (step (start [0x01] [] 254)) (fun t => t.halt == .outOfBounds (.memory 256)) := by decide
theorem test_nop : nextWith (step (start [0x00])) (fun t => t.pc == 1 && t.run == .running) := by decide
theorem test_halted : nextWith (step (State.reset.stop .hlt)) (fun t => t == State.reset.stop .hlt) := by decide

/-! ## Load and store (L2.2) -/

theorem test_ldi : nextWith (step (start [0x82, 0x07, 0x10])) (fun t => t.reg 7 == 0x10 && t.pc == 3) := by decide
theorem test_ldi_bad : nextWith (step (start [0x82, 0x08, 0x05])) (fun t => t.halt == .outOfBounds (.register 8)) := by decide
theorem test_ld : nextWith (step (startMem [0x83, 0x01, 0x01] [(1, 0x80)] 0x80 0x2A)) (fun t => t.reg 1 == 0x2A) := by decide
theorem test_ld_bad : nextWith (step (start [0x83, 0x00, 0x08])) (fun t => t.halt == .outOfBounds (.register 8)) := by decide
theorem test_st : nextWith (step (start [0x84, 0xFF, 0x07])) (fun t => t.mem.read 0xFF == some 7 && t.written == [0xFF]) := by
  decide
theorem test_st_raw :
    nextWith (step (start [0x84, 0x00, 0x01] [(0, 0x40), (1, 0x99)])) (fun t => t.mem.read 0 == some 1 && t.mem.read 0x40 == some 0) := by
  decide

/-! ## Output (L2.3) -/

theorem test_prn :
    nextWith (step (start [0x47, 0x02] [(2, 255)]))
      (fun t => t.out == [.dec 255] && t.pc == 2 && t.console == [.digit 2, .digit 5, .digit 5, .newline]) := by decide
theorem test_pra : nextWith (step (start [0x48, 0x00] [(0, 0x41)])) (fun t => t.out == [.char 0x41] && t.pc == 0) := by decide
theorem test_pra_advance :
    nextWith (step (advancing (start [0x48, 0x00] [(0, 0x0A)]))) (fun t => t.out == [.char 10] && t.pc == 2) := by decide

/-! ## Stack (L2.4) -/

theorem test_push_wraps :
    nextWith (step (start [0x45, 0x00] [(0, 9), (7, 0)])) (fun t => t.reg 7 == 0xFF && t.mem.read 0xFF == some 9) := by decide
theorem test_push_sp : nextWith (step (start [0x45, 0x07])) (fun t => t.reg 7 == 0xF3 && t.mem.read 0xF3 == some 0xF3) := by
  decide
theorem test_pop_wraps :
    nextWith (step (startMem [0x46, 0x00] [(7, 0xFF)] 0xFF 0x33)) (fun t => t.reg 0 == 0x33 && t.reg 7 == 0) := by decide
theorem test_pop_sp : nextWith (step (startMem [0x46, 0x07] [] 0xF4 0x10)) (fun t => t.reg 7 == 0x11) := by decide

/-! ## Control transfer (L1.2, L2.5) -/

theorem test_call :
    nextWith (step (start [0x50, 0x01] [(1, 11)] 6)) (fun t => t.reg 7 == 0xF3 && t.mem.read 0xF3 == some 8 && t.pc == 11) := by
  decide
theorem test_call_sp : nextWith (step (start [0x50, 0x07])) (fun t => t.mem.read 0xF3 == some 2 && t.pc == 0xF3) := by decide
theorem test_ret : nextWith (step (startMem [0x11] [(7, 0xF3)] 0xF3 8)) (fun t => t.pc == 8 && t.reg 7 == 0xF4) := by decide
theorem test_jmp : nextWith (step (start [0x54, 0x01] [(1, 0xFE)])) (fun t => t.pc == 254 && t.run == .running) := by decide

/-- The row of L1.2 for an FL: which of JEQ, JNE, JGT, JLT, JGE, JLE are taken. -/
def taken (fl : Byte) : List Bool :=
  [0x55, 0x56, 0x57, 0x58, 0x5A, 0x59].map fun op => nextWith (step ((start [op, 0x02] [(2, 9)]).setFl fl)) (·.pc == 9)

theorem test_jumps_fl0 : taken 0x00 = [false, true, false, false, false, false] := by decide
theorem test_jumps_equal : taken 0x01 = [true, false, false, false, true, true] := by decide
theorem test_jumps_greater : taken 0x02 = [false, true, true, false, true, false] := by decide
theorem test_jumps_less : taken 0x04 = [false, true, false, true, false, true] := by decide
theorem test_jump_checked_not_taken :
    nextWith (step (start [0x55, 0x09])) (fun t => t.halt == .outOfBounds (.register 9)) := by decide

/-! ## ALU (L2.6) -/

/-- R0 after one step of `op 00 01` with R0 = x and R1 = y, where FL stays 0 and pc becomes 3. -/
def aluR0 (op x y : Byte) : Option Byte :=
  match step (start [op, 0x00, 0x01] [(0, x), (1, y)]) with
  | .next t => if t.fl = 0 ∧ t.pc = 3 then some (t.reg 0) else none
  | .fault _ => none
  | .refused _ => none

theorem test_add : aluR0 0xA0 255 1 = some 0 ∧ aluR0 0xA0 200 100 = some 44 := by decide
theorem test_sub : aluR0 0xA1 0 1 = some 255 ∧ aluR0 0xA1 3 5 = some 254 := by decide
theorem test_mul : aluR0 0xA2 16 16 = some 0 ∧ aluR0 0xA2 255 255 = some 1 := by decide
theorem test_div : aluR0 0xA3 255 16 = some 15 ∧ aluR0 0xA3 7 2 = some 3 := by decide
theorem test_div_zero :
    nextWith (step (start [0xA3, 0x00, 0x01] [(0, 5)])) (fun t => t.halt == .divisionByZero 0 1 && t.status.code == 4) := by decide
theorem test_mod : aluR0 0xA4 255 16 = some 15 ∧ aluR0 0xA4 7 2 = some 1 := by decide
theorem test_mod_zero :
    nextWith (step (start [0xA4, 0x00, 0x01] [(0, 5)])) (fun t => t.halt == .moduloByZero 0 1 && t.status.code == 5) := by decide
theorem test_and : aluR0 0xA8 0xF0 0x3C = some 0x30 := by decide
theorem test_or : aluR0 0xAA 0xF0 0x0F = some 0xFF := by decide
theorem test_xor : aluR0 0xAB 0xFF 0x0F = some 0xF0 := by decide
theorem test_shl : aluR0 0xAC 0x81 1 = some 0x02 ∧ aluR0 0xAC 1 8 = some 0 ∧ aluR0 0xAC 3 200 = some 0 := by decide
theorem test_shr : aluR0 0xAD 0x80 7 = some 0x01 ∧ aluR0 0xAD 0x80 8 = some 0 ∧ aluR0 0xAD 0xFF 4 = some 0x0F := by decide
theorem test_cmp :
    [(5, 5), (6, 5), (5, 6), (0, 255), (255, 0), (0x80, 0x7F)].map (fun p : Byte × Byte => compareFlags p.1 p.2) =
      [0x01, 0x02, 0x04, 0x04, 0x02, 0x02] := by decide
theorem test_cmp_overwrites :
    nextWith (step ((start [0xA7, 0x00, 0x01] [(0, 5), (1, 5)]).setFl 0x04)) (fun t => t.fl == 0x01) := by decide
theorem test_inc : nextWith (step (start [0x65, 0x00, 0x09] [(0, 255)])) (fun t => t.reg 0 == 0 && t.pc == 3) := by decide
theorem test_dec : nextWith (step (start [0x66, 0x00, 0x00] [(0, 0)])) (fun t => t.reg 0 == 255) := by decide
theorem test_not :
    nextWith (step ((start [0x69, 0x00, 0x00] [(0, 0x0F)]).setFl 0x04)) (fun t => t.reg 0 == 0x0F && t.fl == 0x04 && t.pc == 3) := by
  decide
theorem test_not_bad : nextWith (step (start [0x69, 0x09, 0x00])) (fun t => t.halt == .outOfBounds (.register 9)) := by decide
theorem test_both_bad : nextWith (step (start [0xA0, 0x09, 0x08])) (fun t => t.halt == .outOfBounds (.register 9)) := by decide
theorem test_div_bad_before_zero :
    nextWith (step (start [0xA3, 0x00, 0x09])) (fun t => t.halt == .outOfBounds (.register 9)) := by decide

/-! ## Fetch, decode and refusal (L2.7) -/

theorem test_ldi_at_253 : nextWith (step (start [0x82, 0x00, 0x01] [] 253)) (fun t => t.reg 0 == 1 && t.pc == 256) := by decide
theorem test_fetch_at_256 : nextWith (step (start [] [] 256)) (fun t => t.halt == .outOfBounds (.memory 256)) := by decide
theorem test_unknown : nextWith (step (start [0x52])) (fun t => t.halt == .unknownOpcode 0x52 && t.status.code == 3) := by decide
theorem test_unknown_at_254 : nextWith (step (start [0x02] [] 254)) (fun t => t.halt == .outOfBounds (.memory 256)) := by decide
theorem test_modified_operand_refused : isRefused (step { start [0x82, 0x00, 0x01] with written := [2] }) := by decide
theorem test_prefetched_byte_not_used : nextWith (step { start [0x00, 0x00] with written := [1] }) (fun t => t.pc == 1) := by
  decide
theorem test_boot_too_long (image : List Byte) (h : image.length = 257) : State.boot Params.default image = none := by
  simp [State.boot, h]

/-! ## Witnesses: for each statement with hypotheses, a state and operands that meet them -/

theorem witness_DecodeEncodeRoundTrip : OpcodeMap.default.Injective := by decide
theorem witness_EncodeDecodeRoundTrip :
    OpcodeMap.default.decode [0x82, 0x00, 0x05, 0x01] = .ok (.ldi 0 5, [0x01]) := by decide
theorem witness_IgnoredBytesNeverMatter :
    (OpcodeMap.default.lookup 0x01 = some .hlt ∧ Mnemonic.hlt.format = .f1) ∧
    (OpcodeMap.default.lookup 0x47 = some .prn ∧ Mnemonic.prn.format = .f2) := by decide
theorem witness_AssembledLineDecodes :
    OpcodeMap.default.Injective ∧ (AsmLine.mk .dec [.reg 7]).assemble OpcodeMap.default = some [0x66, 0x07, 0x00] := by decide
theorem witness_StepRunsDecodedInstruction :
    let s := start [0x82, 0x00, 0x05] [] 253
    s.run = .running ∧ s.mem.read s.pc.toNat = some 0x82 ∧ s.mem.read (s.pc.toNat + 1) = some 0x00 ∧
    s.mem.read (s.pc.toNat + 2) = some 0x05 ∧ s.params.opcodeMap.decode [0x82, 0x00, 0x05] = .ok (.ldi 0 5, []) ∧
    ∀ k < (Instr.ldi 0 5).mnemonic.width, s.pc.toNat + k ∉ s.written := by decide
theorem witness_FetchAbove253RaisesOutOfBounds :
    (start [] [] 254).run = .running ∧ 253 < (start [] [] 254).pc.toNat := by decide
theorem witness_UnknownOpcodeRaises :
    let s := start [0x13] [] 253
    s.run = .running ∧ s.pc.toNat ≤ 253 ∧ s.mem.read s.pc.toNat = some 0x13 ∧ s.params.opcodeMap.lookup 0x13 = none ∧
    s.pc.toNat ∉ s.written := by decide
theorem witness_RefusedExactlyOnWrittenBytes :
    let s := { start [0x00] [] 253 with written := [253] }
    isRefused (step s) ∧ s.run = .running ∧ s.pc.toNat ≤ 253 ∧ s.mem.read s.pc.toNat = some 0x00 ∧
    0 < usedWidth s.params.opcodeMap 0x00 ∧ s.pc.toNat + 0 ∈ s.written := by decide
theorem witness_RunStateIsTerminalAndUnread :
    (State.boot Params.default [0x01]).isSome ∧ (State.reset.stop .hlt).run = .halted ∧
    exec .nop State.reset = .next (State.reset.advance 1) := ⟨by decide, by decide, rfl⟩
theorem witness_RegisterOperandsAreChecked :
    (Instr.add 0 8).regOperands.find? (7 < ·.toNat) = some 8 ∧ (Instr.add 9 8).regOperands.find? (7 < ·.toNat) = some 9 := by
  decide
theorem witness_WellFormedInstructionDoesNotHalt :
    (Instr.div 0 1).WellFormed ∧ ¬ DividesByZero (.div 0 1) (start [] [(1, 1)]) ∧ Instr.div 0 1 ≠ .hlt := by
  refine ⟨by decide, ?_, by decide⟩
  rintro ⟨a, b, j, h, hj, hz⟩
  rcases h with h | h
  · obtain ⟨rfl, rfl⟩ := Instr.div.inj h
    have : j = 1 := (Option.some.inj hj).symm
    subst this
    exact absurd hz (by decide)
  · cases h
theorem witness_UnsupportedOperationIsUnreachable :
    exec .nop State.reset = .next (State.reset.advance 1) ∧ State.reset.halt ≠ .unsupportedOperation 0xA0 :=
  ⟨rfl, by decide⟩
theorem witness_BootLoadsImage :
    [0x01].length ≤ 256 ∧ ∃ fits tooLong : List Byte, fits.length = 256 ∧ tooLong.length = 257 :=
  ⟨by decide, _, _, List.length_replicate (n := 256) (a := 0), List.length_replicate (n := 257) (a := 0)⟩
theorem witness_StepKeepsInvariant :
    (start [0x84, 0x80, 0x2A]).Inv ∧ nextWith (step (start [0x84, 0x80, 0x2A])) (fun t => t.written == [0x80]) := by decide
theorem witness_BootSatisfiesInvariant : (State.boot Params.default [0x01]).isSome := by decide
theorem witness_StepKeepsUnwrittenBytes :
    (start [0x84, 0x80, 0x2A]).mem.wf ∧ nextWith (step (start [0x84, 0x80, 0x2A])) (fun t => 0x81 ∉ t.written ∧ t.NoError) := by decide
theorem witness_StepKeepsImageOutsideWritten :
    (start [0x84, 0x80, 0x2A]).HoldsImage [0x84, 0x80, 0x2A] ∧
    nextWith (step (start [0x84, 0x80, 0x2A])) (fun t => t.written == [0x80] ∧ t.NoError) := by
  refine ⟨⟨by decide, fun a ha _ => ?_⟩, by decide⟩
  rcases a with _ | _ | _ | a
  · decide
  · decide
  · decide
  · show Memory.read ⟨[(0, 0x84), (1, 0x80), (2, 0x2A)]⟩ (a + 3) = some 0
    rw [Memory.read, if_neg (by omega)]
    rfl
/-- A run of two steps, a store and an HLT: the written cell differs from the image, the cell beside it does not. -/
theorem witness_UnwrittenBytesKeepTheImage :
    State.boot Params.default [0x84, 0x80, 0x2A, 0x01] = some (start [0x84, 0x80, 0x2A, 0x01]) ∧
    nextWith (Host.Core.run Sys2Proof.core 2 (start [0x84, 0x80, 0x2A, 0x01]))
      (fun t => t.NoError ∧ t.halt = .hlt ∧ 0x80 ∈ t.written ∧ 0x81 ∉ t.written) := ⟨rfl, by decide⟩
theorem witness_StepKeepsParameters : nextWith (step (start [0x48, 0x00])) (fun t => t.out.length == 1) := by decide
theorem witness_OutputOnlyGrows : nextWith (exec (.prn 0) State.reset) (fun t => t.out == [.dec 0]) := by decide
theorem witness_OnlyCmpWritesFlags :
    (∀ a b, Instr.nop ≠ .cmp a b) ∧ exec .nop State.reset = .next (State.reset.advance 1) ∧ (State.reset.advance 1).NoError :=
  ⟨nofun, rfl, by decide⟩
theorem witness_OnlyConditionalJumpsReadFlags :
    (∀ a, Instr.nop ≠ .jeq a ∧ Instr.nop ≠ .jne a ∧ Instr.nop ≠ .jgt a ∧ Instr.nop ≠ .jlt a ∧ Instr.nop ≠ .jge a ∧
      Instr.nop ≠ .jle a) ∧ exec .nop State.reset = .next (State.reset.advance 1) ∧ (State.reset.advance 1).NoError :=
  ⟨fun _ => ⟨nofun, nofun, nofun, nofun, nofun, nofun⟩, rfl, by decide⟩
theorem witness_OnlyNamedRegistersChange :
    nextWith (exec (.pop 0) State.reset) (fun t => t.reg 7 == 0xF5 ∧ t.NoError) ∧ (1 : RegIndex) ∉ writtenRegisters (.pop 0) := by decide
theorem witness_OnlyStoresChangeMemory :
    State.reset.mem.wf ∧ nextWith (exec (.st 0x80 42) State.reset) (fun t => t.mem.read 0x80 == some 42 ∧ t.NoError) ∧
    storeAddress (.st 0x80 42) State.reset ≠ some 0x81 ∧ storeAddress .nop State.reset ≠ some 0x80 := by decide
theorem witness_MemoryReadAndWrite : State.reset.mem.wf ∧ (255 : Nat) < 256 ∧ (255 : Nat) ≤ 255 := by decide
/-- The bad operand of ChecksA, ChecksFirst and ChecksBoth, at its lowest and highest. -/
theorem witness_bad_operand : 7 < (8 : Byte).toNat ∧ 7 < (255 : Byte).toNat := by decide
/-- The hypothesis of StStoresImmediate, PushStores and CallPushesReturnAddress. -/
theorem witness_memory_wf : State.reset.mem.wf := by decide
theorem witness_PraEmitsCharacter :
    State.reset.params.praAdvance = .stay ∧ (advancing State.reset).params.praAdvance = .advance := by decide
theorem witness_PraWithoutAdvanceNeverEnds :
    let s := start [0x48, 0x00, 0x01]
    s.run = .running ∧ s.params.praAdvance = .stay ∧ s.params.opcodeMap.lookup 0x48 = some .pra ∧
    s.mem.read s.pc.toNat = some 0x48 ∧ s.mem.read (s.pc.toNat + 1) = some (regByte 0) ∧
    s.mem.read (s.pc.toNat + 2) = some 0x01 ∧ s.pc.toNat ∉ s.written ∧ s.pc.toNat + 1 ∉ s.written := by decide
/-- The hypotheses of JmpReplacesPc's loop clause, the JMP at the last address a fetch can read. -/
theorem witness_JmpReplacesPc :
    let s := start [0x54, 0x02, 0x00] [(2, 253)] 253
    s.run = .running ∧ s.params.opcodeMap.lookup 0x54 = some .jmp ∧
    s.mem.read s.pc.toNat = some 0x54 ∧ s.mem.read (s.pc.toNat + 1) = some (regByte 2) ∧
    s.mem.read (s.pc.toNat + 2) = some 0x00 ∧ s.pc.toNat ∉ s.written ∧ s.pc.toNat + 1 ∉ s.written ∧
    (s.reg 2).toNat = s.pc.toNat := by decide
theorem witness_ConsoleShowsEvents : decimalDigits 0 = [0] ∧ decimalDigits 255 = [2, 5, 5] := by decide
theorem witness_CallThenRetReturns :
    let s := start [] [(1, 11)] 253
    s.mem.wf ∧ s.pc.toNat ≤ 253 ∧ nextWith (exec (.call (regByte 1)) s) (fun t => t.mem.read (t.reg spIndex).toNat == some 255) := by
  decide
theorem witness_CmpThenJumpFollowsOrder : nextWith (exec (.cmp (regByte 0) (regByte 7)) State.reset) (fun t => t.fl == 0x04) := by
  decide
/-- The hypotheses of DivDividesOrRaises, ModReducesOrRaises and DivModRelation: a divisor that is not 0, and one that is. -/
theorem witness_divisor :
    (start [] [(0, 7), (1, 1)]).reg 1 ≠ 0 ∧ State.reset.reg 1 = 0 ∧
    nextWith (exec (.div (regByte 0) (regByte 1)) (start [] [(0, 7), (1, 1)])) (fun t => t.reg 0 == 7) ∧
    nextWith (exec (.mod (regByte 0) (regByte 1)) (start [] [(0, 7), (1, 1)])) (fun t => t.reg 0 == 0) := by decide
theorem witness_ShiftsUseFullCount : 8 ≤ ((start [] [(1, 8)]).reg 1).toNat := by decide
theorem witness_CmpSetsFlags :
    let s := start [] [(0, 5), (1, 5), (2, 6)]
    (s.reg 0).toNat = (s.reg 1).toNat ∧ (s.reg 2).toNat > (s.reg 0).toNat ∧ (s.reg 0).toNat < (s.reg 2).toNat := by decide
theorem witness_TracePortShowsMemory :
    (start [] [] 255).pc.toNat ≤ 255 ∧ (start [] [] 254).pc.toNat + 1 ≤ 255 ∧ (start [] [] 253).pc.toNat + 2 ≤ 255 := by decide

end Sys2Proof.Machine.Tests
end

section
/-! PROOFS. The run state (R26, R31, R61): reset leaves the block running, a halted block stays halted, and no instruction
reads the run state. The last is a simulation: two states that differ only in the run state have outcomes that differ only
there, shown once per shared operation of `exec`. -/

namespace Sys2Proof.Machine

/-! ## States and outcomes that differ only in the run state -/

/-- The state with another run state. -/
def State.withRun (s : State) (r : RunState) : State := { s with run := r }

/-- Both outcomes are next states, and the states differ at most in the run state. -/
def AgreeButRun (o o' : Result) : Prop :=
  ∃ t r, o = .next t ∧ o' = .next (t.withRun r)

theorem agreeButRun_next (t : State) (r : RunState) : AgreeButRun (.next t) (.next (t.withRun r)) :=
  ⟨t, r, rfl, rfl⟩

section operations

variable (s : State) (r : RunState)

/-- Stopping overwrites the run state, so the two outcomes are then even equal. -/
theorem agreeButRun_stop (reason : HaltReason) :
    AgreeButRun (.next (s.stop reason)) (.next ((s.withRun r).stop reason)) :=
  agreeButRun_next (s.stop reason) .halted

theorem agreeButRun_withReg (a : Byte) {k k' : RegIndex → Result} (hk : ∀ i, AgreeButRun (k i) (k' i)) :
    AgreeButRun (withReg a s k) (withReg a (s.withRun r) k') := by
  rcases withReg_cases a s k with ⟨i, rfl, -⟩ | ⟨ha, -⟩
  · simpa using hk i
  · rw [withReg_bad ha, withReg_bad ha]
    exact agreeButRun_stop s r _

theorem agreeButRun_withRegs (a b : Byte) {k k' : RegIndex → RegIndex → Result}
    (hk : ∀ i j, AgreeButRun (k i j) (k' i j)) :
    AgreeButRun (withRegs a b s k) (withRegs a b (s.withRun r) k') :=
  agreeButRun_withReg s r a fun i => agreeButRun_withReg s r b (hk i)

theorem agreeButRun_readByte (address : Byte) {k k' : Byte → Result} (hk : ∀ v, AgreeButRun (k v) (k' v)) :
    AgreeButRun (readByte address.toNat s k) (readByte address.toNat (s.withRun r) k') := by
  rw [readByte_byte, readByte_byte]
  exact hk _

theorem agreeButRun_storeByte (address : Byte) (v : Nat) {k : State → Result}
    (hk : ∀ t, AgreeButRun (k t) (k (t.withRun r))) :
    AgreeButRun (storeByte address.toNat v s k) (storeByte address.toNat v (s.withRun r) k) := by
  rw [storeByte_byte, storeByte_byte]
  exact hk (s.stored address v)

theorem agreeButRun_pushByte {v : State → Nat} (hv : ∀ t : State, v (t.withRun r) = v t) {k : State → Result}
    (hk : ∀ t, AgreeButRun (k t) (k (t.withRun r))) :
    AgreeButRun (pushByte v s k) (pushByte v (s.withRun r) k) := by
  have hpush : pushByte v (s.withRun r) k =
      storeByte (s.decSp.reg spIndex).toNat (v s.decSp) (s.decSp.withRun r) k := by
    rw [← hv s.decSp]
    rfl
  rw [hpush]
  exact agreeButRun_storeByte s.decSp r _ _ hk

theorem agreeButRun_jumpIf (condition : Bool) (a : Byte) :
    AgreeButRun (jumpIf condition a s) (jumpIf condition a (s.withRun r)) := by
  refine agreeButRun_withReg s r a fun i => ?_
  cases condition with
  | false => exact agreeButRun_next (s.advance 2) r
  | true => exact agreeButRun_next (s.jump (s.reg i)) r

theorem agreeButRun_applyAlu (op : Mnemonic) (a b : Byte) (i : RegIndex) (e : AluEffect) :
    AgreeButRun (applyAlu op a b i s e) (applyAlu op a b i (s.withRun r) e) := by
  cases e with
  | writeReg v => exact agreeButRun_next ((s.setReg i v).advance 3) r
  | writeFlags v => exact agreeButRun_next ((s.setFl v).advance 3) r
  | nothing => exact agreeButRun_next (s.advance 3) r
  | divisionByZero | moduloByZero | unsupported => exact agreeButRun_stop s r _

theorem agreeButRun_execBinary (op : Mnemonic) (a b : Byte) :
    AgreeButRun (execBinary op a b s) (execBinary op a b (s.withRun r)) :=
  agreeButRun_withRegs s r a b fun i j => agreeButRun_applyAlu s r op a b i (aluBinary op (s.reg i) (s.reg j))

theorem agreeButRun_execUnary (op : Mnemonic) (a b : Byte) :
    AgreeButRun (execUnary op a b s) (execUnary op a b (s.withRun r)) :=
  agreeButRun_withReg s r a fun i => agreeButRun_applyAlu s r op a b i (aluUnary op (s.reg i))

/-- No instruction reads the run state (R26). -/
theorem agreeButRun_exec (i : Instr) : AgreeButRun (exec i s) (exec i (s.withRun r)) := by
  cases i with
  | hlt => exact agreeButRun_stop s r .hlt
  | nop => exact agreeButRun_next (s.advance 1) r
  | ldi a b => exact agreeButRun_withReg s r a fun i => agreeButRun_next ((s.setReg i b).advance 3) r
  | ld a b =>
    exact agreeButRun_withRegs s r a b fun i j =>
      agreeButRun_readByte s r (s.reg j) fun v => agreeButRun_next ((s.setReg i v).advance 3) r
  | st a b => exact agreeButRun_storeByte s r a b.toNat fun t => agreeButRun_next (t.advance 3) r
  | prn a => exact agreeButRun_withReg s r a fun i => agreeButRun_next ((s.emit (.dec (s.reg i))).advance 2) r
  | pra a =>
    exact agreeButRun_withReg s r a fun i =>
      agreeButRun_next ((s.emit (.char (s.reg i))).advance (praAdvanceBytes s.params.praAdvance)) r
  | push a =>
    exact agreeButRun_withReg s r a fun _ =>
      agreeButRun_pushByte s r (fun _ => rfl) fun t => agreeButRun_next (t.advance 2) r
  | pop a =>
    exact agreeButRun_withReg s r a fun i =>
      agreeButRun_readByte s r (s.reg spIndex) fun v => agreeButRun_next ((s.setReg i v).incSp.advance 2) r
  | call a =>
    exact agreeButRun_withReg s r a fun i =>
      agreeButRun_pushByte s r (fun _ => rfl) fun t => agreeButRun_next (t.jump (t.reg i)) r
  | ret => exact agreeButRun_readByte s r (s.reg spIndex) fun v => agreeButRun_next (s.incSp.jump v) r
  | jmp a => exact agreeButRun_withReg s r a fun i => agreeButRun_next (s.jump (s.reg i)) r
  | jeq a | jne a | jgt a | jlt a | jge a | jle a => exact agreeButRun_jumpIf s r _ a
  | add a b | sub a b | mul a b | div a b | mod a b | and a b | or a b | xor a b | shl a b | shr a b | cmp a b =>
    exact agreeButRun_execBinary s r _ a b
  | inc a b | dec a b | not a b => exact agreeButRun_execUnary s r _ a b

end operations

/-! ## The run state after reset -/

/-- A boot that succeeds gives the reset state, but for the memory that the loader fills (R29, R230, R234). -/
theorem State.boot_eq_some {params : Params} {image : List Byte} {s : State} :
    State.boot params image = some s ↔
      image.length ≤ 256 ∧ { State.resetWith params with mem := (State.resetWith params).mem.load 0 image } = s := by
  simp [State.boot]

/-- Settles O12: the boot state is the reset state with an image, a halted step is `step_halted`, and outcomes from two run
states agree on everything else by `agreeButRun_exec`. -/
theorem runStateIsTerminalAndUnread : Obligations.RunStateIsTerminalAndUnread := by
  refine ⟨fun params image s hboot => ?_, fun s => step_halted, fun i s t r ht => ?_⟩
  · obtain ⟨-, rfl⟩ := State.boot_eq_some.1 hboot
    exact ⟨rfl, rfl⟩
  · obtain ⟨t', r', hs, hr⟩ := agreeButRun_exec s r i
    obtain rfl : t' = t := Host.Outcome.next.inj (hs.symm.trans ht)
    exact ⟨t'.withRun r', hr, rfl, rfl, fun _ => rfl⟩

end Sys2Proof.Machine
end

section
/-! PROOFS. MemRead and MemWrite (R42, R43): both raise above the last address 255; an address up to 255 is the value of a
byte, so inside memory the laws of 8-bit addresses (R47) speak of every address. -/

namespace Sys2Proof.Machine

/-- Raising gives a halted state with the reason and the output so far (R205). -/
theorem raises_raise (reason : HaltReason) (s : State) : Raises (raise reason s) s reason :=
  ⟨s.stop reason, rfl, rfl, rfl, rfl⟩

/-- A read above the last address raises (R42). -/
theorem readByte_of_lt {address : Nat} (h : 255 < address) (s : State) (k : Byte → Result) :
    readByte address s k = raise (.outOfBounds (.memory address)) s := by
  simp [readByte, Memory.read_of_lt _ h]

/-- A memory write above the last address answers none (R43). -/
theorem Memory.write_of_lt (m : Memory) {address : Nat} (h : 255 < address) (v : Nat) : m.write address v = none := by
  simp [Memory.write, h]

/-- A store above the last address raises (R43). -/
theorem storeByte_of_lt {address : Nat} (h : 255 < address) (v : Nat) (s : State) (k : State → Result) :
    storeByte address v s k = raise (.outOfBounds (.memory address)) s := by
  simp [storeByte, Memory.write_of_lt _ h]

/-- An address inside the 256 bytes is the value of a byte (R40). -/
theorem exists_byte_toNat_eq {address : Nat} (h : address ≤ 255) : ∃ a : Byte, a.toNat = address :=
  ⟨BitVec.ofNatLT address (Nat.lt_succ_of_le h), BitVec.toNat_ofNatLT ..⟩

/-- The byte a store puts in its cell is the value modulo 256 (R43). -/
theorem State.read_stored_self {s : State} (h : s.mem.wf) (a : Byte) (v : Nat) :
    (s.stored a v).mem.read a.toNat = some (BitVec.ofNat 8 (v % 256)) := by
  have low : BitVec.ofNat 8 (v % 256) = BitVec.ofNat 8 v := BitVec.eq_of_toNat_eq (by simp)
  rw [s.read_stored a v h, if_pos rfl, low]

/-- A store leaves every other cell (R43). -/
theorem State.read_stored_of_ne {s : State} (h : s.mem.wf) {a : Byte} (v : Nat) {other : Nat} (hne : other ≠ a.toNat) :
    (s.stored a v).mem.read other = s.mem.read other := by
  rw [s.read_stored a v h, if_neg hne.symm]

/-- Settles O30: above 255 by the raising rules of the two accesses; up to 255 the address is that of a byte, where the
read goes on with the byte listed for the cell and the store goes on from `State.stored`. -/
theorem memoryReadAndWrite : Obligations.MemoryReadAndWrite := by
  intro s address v hwf
  refine ⟨fun habove => ⟨fun k => ?_, fun k => ?_⟩, fun hinside => ?_⟩
  · rw [readByte_of_lt habove]
    exact raises_raise _ s
  · rw [storeByte_of_lt habove]
    exact raises_raise _ s
  · obtain ⟨a, rfl⟩ := exists_byte_toNat_eq hinside
    exact ⟨⟨_, s.mem.read_byte a, readByte_byte a s⟩,
      s.stored a v, storeByte_byte a v s, s.memWf_stored a v hwf, State.read_stored_self hwf a v,
      fun _ => State.read_stored_of_ne hwf v, rfl⟩

end Sys2Proof.Machine
end

section
/-! PROOFS. NOP (R101): one byte that moves the pc on by 1. Its frame is that of an advance of the pc, and its fetch error is
the one every running block above 253 raises (R62, R206). -/

namespace Sys2Proof.Machine

/-! ## Frames -/

/-- A state is its own frame. -/
theorem Frame.refl (s : State) : Frame [] [] s s where
  regs _ _ := rfl
  mem _ _ := rfl
  written a := by simp
  run := rfl
  halt := rfl
  latches := ⟨rfl, rfl, rfl⟩
  params := rfl

/-- Moving the pc on keeps every frame: a frame says nothing of the pc. -/
theorem Frame.advance {regs : List RegIndex} {stored : List Nat} {s t : State} (h : Frame regs stored s t) (n : Nat) :
    Frame regs stored s (t.advance n) where
  regs := h.regs
  mem := h.mem
  written := h.written
  run := h.run
  halt := h.halt
  latches := h.latches
  params := h.params

/-! ## The fetch above 253 -/

/-- A fetch whose three addresses all answer a byte starts at 253 or below (R42, R62). -/
theorem le_253_of_read_add_two {m : Memory} {p : Nat} {b : Byte} (h : m.read (p + 2) = some b) : p ≤ 253 := by
  by_contra hp
  have hnone : m.read (p + 2) = none := m.read_of_lt (by omega)
  rw [hnone] at h
  cases h

/-- A running block above 253 raises `OutOfBounds`: of the two answers of a fetch, going on would need a byte above 255. -/
theorem fetchFaultsAbove253 : FetchFaultsAbove253 := by
  intro s hrun hpc
  rw [step_running hrun]
  rcases fetch_cases s issue with ⟨_, _, b, _, _, hb, _⟩ | ⟨_, op, a, hraise⟩
  · exact absurd (le_253_of_read_add_two hb) (Nat.not_le.2 hpc)
  · rw [hraise]
    exact raises_raise _ (s.latched op a s.opB)

/-- Settles O32: `exec_nop` advances the pc by 1, which keeps the frame; the fetch error is that of every instruction. -/
theorem nopAdvances : Obligations.NopAdvances := by
  refine ⟨fun _ => rfl, fun s => ?_, fetchFaultsAbove253⟩
  exact ⟨s.advance 1, exec_nop s, rfl, (Frame.refl s).advance 1, rfl, rfl⟩

end Sys2Proof.Machine
end

section
/-! PROOFS. LDI and LD (R110, R111). Both end in one register write and an advance of the pc by 3, the state `WritesOnly`
describes; their operand checks are those of every form with the same register roles (R21, R65). -/

namespace Sys2Proof.Machine

/-! ## One register write, then the next instruction -/

/-- A register write adds its register to a frame. -/
theorem Frame.setReg {regs : List RegIndex} {stored : List Nat} {s t : State} (h : Frame regs stored s t) (i : RegIndex)
    (v : Byte) : Frame (i :: regs) stored s (t.setReg i v) where
  regs k hk := by
    obtain ⟨hne, hk⟩ := List.ne_and_not_mem_of_not_mem_cons hk
    rw [State.reg_setReg_of_ne t v hne, h.regs k hk]
  mem := h.mem
  written := h.written
  run := h.run
  halt := h.halt
  latches := h.latches
  params := h.params

/-- The state after a register write and an advance by 3 differs in that register and the pc alone. -/
theorem writesOnly_setReg_advance (i : RegIndex) (v : Byte) (s : State) :
    WritesOnly i s ((s.setReg i v).advance 3) :=
  ⟨((Frame.refl s).setReg i v).advance 3, rfl, rfl, rfl⟩

/-- An instruction that answers a register write and an advance by 3 completes with the value in that register. -/
theorem completes_of_exec_setReg {instr : Instr} {i : RegIndex} {v : Byte} {s : State}
    (h : exec instr s = .next ((s.setReg i v).advance 3)) :
    Completes instr s fun t => t.reg i = v ∧ WritesOnly i s t :=
  ⟨_, h, s.reg_setReg_self i v, writesOnly_setReg_advance i v s⟩

/-! ## Operand checks of the three-byte forms (R21) -/

section checks

variable {mk : Byte → Byte → Instr} (hops : ∀ a b, (mk a b).operands = [a, b])
include hops

/-- A form of two operands whose a is a register checks a. -/
theorem checksFirst_of_roles (hroles : ∀ a b, ((mk a b).mnemonic.roles.map Role.isReg).head? = some true) :
    ChecksFirst mk := by
  intro a b s ha
  have hhead : (mk a b).operands.head? = some a := by rw [hops]; rfl
  rw [exec_bad_first s ha hhead (hroles a b)]
  exact raises_raise _ s

/-- A form of two register operands checks both: a bad a is reported, and b where a names a register. -/
theorem checksBoth_of_roles (hroles : ∀ a b, (mk a b).mnemonic.roles.map Role.isReg = [true, true]) :
    ChecksBoth mk := by
  intro a b s hbad
  by_cases ha : 7 < a.toNat
  · have hfirst : ChecksFirst mk := checksFirst_of_roles hops fun a b => by rw [hroles]; rfl
    exact ⟨a, .inl rfl, ha, hfirst a b s ha⟩
  · obtain ⟨i, hi⟩ := Option.ne_none_iff_exists'.1 (mt regIndex_eq_none.1 ha)
    obtain rfl := regIndex_eq_some.1 hi
    have hb : 7 < b.toNat := hbad.resolve_left ha
    refine ⟨b, .inr rfl, hb, ?_⟩
    rw [exec_bad_second s hb (hops _ _) (hroles _ _)]
    exact raises_raise _ s

end checks

/-- Settles O33: `exec_ldi` is one register write; only a is a register operand. -/
theorem ldiLoadsImmediate : Obligations.LdiLoadsImmediate :=
  ⟨fun _ _ _ => rfl, fun i b s => completes_of_exec_setReg (exec_ldi s i b),
    checksFirst_of_roles (fun _ _ => rfl) (fun _ _ => rfl), fetchFaultsAbove253⟩

/-- Settles O34: an address held in a register is inside memory, so the read at the old x[b] answers a byte (R47), and
`exec_ld` writes that byte. -/
theorem ldLoadsIndirect : Obligations.LdLoadsIndirect :=
  ⟨fun _ _ _ => rfl, fun i j s => ⟨_, s.mem.read_byte (s.reg j), completes_of_exec_setReg (exec_ld s i j)⟩,
    checksBoth_of_roles (fun _ _ => rfl) (fun _ _ => rfl), fetchFaultsAbove253⟩

end Sys2Proof.Machine
end

section
/-! PROOFS. PRN (R120, R121): one event sent to the output port, which no frame speaks of, and an advance of the pc by 2; the
operand check is that of every form whose one operand is a register (R21, R65). -/

namespace Sys2Proof.Machine

/-- Sending an event keeps every frame: a frame says nothing of the output. -/
theorem Frame.emit {regs : List RegIndex} {stored : List Nat} {s t : State} (h : Frame regs stored s t) (e : OutEvent) :
    Frame regs stored s (t.emit e) where
  regs := h.regs
  mem := h.mem
  written := h.written
  run := h.run
  halt := h.halt
  latches := h.latches
  params := h.params

/-- A form whose one operand is a register checks it (R21). -/
theorem checksA_of_roles {mk : Byte → Instr} (hops : ∀ a, (mk a).operands = [a])
    (hroles : ∀ a, (mk a).mnemonic.roles.map Role.isReg = [true]) : ChecksA mk := by
  intro a s ha
  have hhead : (mk a).operands.head? = some a := by rw [hops]; rfl
  have hreg : ((mk a).mnemonic.roles.map Role.isReg).head? = some true := by rw [hroles]; rfl
  rw [exec_bad_first s ha hhead hreg]
  exact raises_raise _ s

/-- Settles O36: `exec_prn` sends the event and advances the pc by 2, and both keep the frame; the digits of 0 and 255 are
computed by `OutEvent.console`. -/
theorem prnEmitsDecimal : Obligations.PrnEmitsDecimal := by
  refine ⟨fun _ _ => rfl, fun i s => ?_, by decide, by decide,
    checksA_of_roles (fun _ => rfl) (fun _ => rfl), fetchFaultsAbove253⟩
  exact ⟨_, exec_prn s i, rfl, rfl, ((Frame.refl s).emit _).advance 2, rfl⟩

end Sys2Proof.Machine
end

section
/-! PROOFS. JMP (R142): the pc is replaced and nothing else changes. The endless loop at a JMP to its own address rests on a
predicate that every step keeps: such a step only loads the latches, and the predicate does not read them. -/

namespace Sys2Proof.Machine

/-- Replacing the pc keeps every frame: a frame says nothing of the pc. -/
theorem Frame.jump {regs : List RegIndex} {stored : List Nat} {s t : State} (h : Frame regs stored s t) (target : Byte) :
    Frame regs stored s (t.jump target) where
  regs := h.regs
  mem := h.mem
  written := h.written
  run := h.run
  halt := h.halt
  latches := h.latches
  params := h.params

/-- A jump to the pc's own address changes nothing. -/
theorem State.jump_of_toNat_eq_pc (s : State) {target : Byte} (h : target.toNat = s.pc.toNat) : s.jump target = s := by
  have hpc : target.setWidth 9 = s.pc :=
    BitVec.eq_of_toNat_eq ((BitVec.toNat_setWidth_of_le (by decide)).trans h)
  simp [State.jump, hpc]

/-! ## The step at a known opcode -/

/-- A fetch whose three addresses answer bytes goes on with those latched (R62). -/
theorem fetch_of_reads {s : State} {op a b : Byte} (hop : s.mem.read s.pc.toNat = some op)
    (ha : s.mem.read (s.pc.toNat + 1) = some a) (hb : s.mem.read (s.pc.toNat + 2) = some b) (k : State → Result) :
    fetch s k = k (s.latched op a b) := by
  simp only [fetch, readByte, hop, ha, hb]
  rfl

/-- A known opcode none of whose bytes is in W is executed with the latched operand bytes (R53, R61). -/
theorem issue_of_lookup {s : State} {m : Mnemonic} (hm : s.params.opcodeMap.lookup s.ir = some m)
    (hfresh : ∀ k < m.width, s.pc.toNat + k ∉ s.written) : issue s = exec (m.build s.opA s.opB) s := by
  have hwidth : usedWidth s.params.opcodeMap s.ir = m.width := by simp [usedWidth, hm]
  rcases issue_cases s with ⟨hused, -⟩ | ⟨-, hnone, -⟩ | ⟨-, m', hm', hexec⟩
  · obtain ⟨k, hk, hmem⟩ := usesWritten_iff.1 hused
    exact absurd hmem (hfresh k (hwidth ▸ hk))
  · cases hnone.symm.trans hm
  · obtain rfl := Option.some.inj (hm'.symm.trans hm)
    exact hexec

/-! ## The loop at a JMP to its own address -/

/-- A running block whose pc is at a JMP of the register `i`, its two bytes not in W, where `i` holds the JMP's own address.
The latches are not read. -/
structure AtJmpToSelf (op b : Byte) (i : RegIndex) (s : State) : Prop where
  run : s.run = .running
  lookup : s.params.opcodeMap.lookup op = some .jmp
  byte0 : s.mem.read s.pc.toNat = some op
  byte1 : s.mem.read (s.pc.toNat + 1) = some (regByte i)
  byte2 : s.mem.read (s.pc.toNat + 2) = some b
  fresh : ∀ k < Mnemonic.jmp.width, s.pc.toNat + k ∉ s.written
  target : (s.reg i).toNat = s.pc.toNat

/-- Whatever the latches hold, the block is still at the JMP to itself. -/
theorem AtJmpToSelf.latched {op b : Byte} {i : RegIndex} {s : State} (h : AtJmpToSelf op b i s) (x y z : Byte) :
    AtJmpToSelf op b i (s.latched x y z) where
  run := h.run
  lookup := h.lookup
  byte0 := h.byte0
  byte1 := h.byte1
  byte2 := h.byte2
  fresh := h.fresh
  target := h.target

/-- A step at a JMP to itself only loads the latches (R142). -/
theorem AtJmpToSelf.step_eq {op b : Byte} {i : RegIndex} {s : State} (h : AtJmpToSelf op b i s) :
    step s = .next (s.latched op (regByte i) b) :=
  calc step s = issue (s.latched op (regByte i) b) := by
        rw [step_running h.run, fetch_of_reads h.byte0 h.byte1 h.byte2]
    _ = exec (.jmp (regByte i)) (s.latched op (regByte i) b) :=
        issue_of_lookup (s := s.latched op (regByte i) b) h.lookup h.fresh
    _ = .next ((s.latched op (regByte i) b).jump (s.reg i)) := exec_jmp _ i
    _ = .next (s.latched op (regByte i) b) := by
        rw [(s.latched op (regByte i) b).jump_of_toNat_eq_pc h.target]

/-- After every number of steps the block is in the state it started from, but for the latches. -/
theorem AtJmpToSelf.run_eq {op b : Byte} {i : RegIndex} (n : Nat) {s : State} (h : AtJmpToSelf op b i s) :
    ∃ x y z, Host.Core.run Sys2Proof.core n s = .next (s.latched x y z) := by
  induction n generalizing s with
  | zero => exact ⟨s.ir, s.opA, s.opB, rfl⟩
  | succ n ih =>
    obtain ⟨x, y, z, hrest⟩ := ih (h.latched op (regByte i) b)
    exact ⟨x, y, z, (run_succ_of_next h.step_eq n).trans hrest⟩

/-- Settles O45: `exec_jmp` replaces the pc, which keeps the frame; the loop is `AtJmpToSelf.run_eq`, whose
`fresh` is the two hypotheses on W, JMP being two bytes wide. -/
theorem jmpReplacesPc : Obligations.JmpReplacesPc := by
  refine ⟨fun _ _ => rfl, fun i s => ?_, fun s op b i n hrun hlookup h0 h1 h2 hw0 hw1 htarget => ?_,
    checksA_of_roles (fun _ => rfl) (fun _ => rfl), fetchFaultsAbove253⟩
  · exact ⟨_, exec_jmp s i, rfl, (Frame.refl s).jump _, rfl, rfl⟩
  · have hfresh : ∀ k < Mnemonic.jmp.width, s.pc.toNat + k ∉ s.written
      | 0, _ => hw0
      | 1, _ => hw1
    have hself : AtJmpToSelf op b i s := ⟨hrun, hlookup, h0, h1, h2, hfresh, htarget⟩
    obtain ⟨x, y, z, ht⟩ := hself.run_eq n
    exact ⟨_, ht, rfl⟩

end Sys2Proof.Machine
end

section
/-! PROOFS. The binary ALU instructions (R160 to R167, R176). Those that always write x[a] share one shape: the value the ALU
answers, related to the rule's numbers or bits, and a frame that is `WritesOnly`. -/

namespace Sys2Proof.Machine

/-! ## The shape of the instructions that write x[a] -/

section shape

variable {mk : Byte → Byte → Instr} (v : Byte → Byte → Byte)
  (hexec : ∀ s i j, exec (mk (regByte i) (regByte j)) s = .next ((s.setReg i (v (s.reg i) (s.reg j))).advance 3))
include hexec

/-- An instruction that writes `v` of its two registers has the result `f` when `v` is `f` modulo 256. -/
theorem binaryResult_of_exec {f : Int → Int → Int} (hv : ∀ x y, ((v x y).toNat : Int) = f x.toNat y.toNat % 256) :
    BinaryResult mk f := by
  intro i j s
  obtain ⟨t, ht, hreg, hframe⟩ := completes_of_exec_setReg (hexec s i j)
  exact ⟨t, ht, hreg ▸ hv (s.reg i) (s.reg j), hframe⟩

/-- An instruction that writes `v` of its two registers has the bitwise result `f` when `v` is `f` at every bit. -/
theorem bitwiseResult_of_exec {f : Bool → Bool → Bool}
    (hv : ∀ x y n, (v x y).getLsbD n = f (x.getLsbD n) (y.getLsbD n)) : BitwiseResult mk f := by
  intro i j s
  obtain ⟨t, ht, hreg, hframe⟩ := completes_of_exec_setReg (hexec s i j)
  exact ⟨t, ht, fun n _ => hreg ▸ hv (s.reg i) (s.reg j) n, hframe⟩

end shape

/-! ## ADD, SUB and MUL -/

/-- An exact integer result reduced to a byte is that result modulo 256 (R176). -/
theorem toNat_ofInt_byte (z : Int) : ((BitVec.ofInt 8 z).toNat : Int) = z % 256 := by
  rw [BitVec.toNat_ofInt]
  exact Int.toNat_of_nonneg (Int.emod_nonneg z (by decide))

/-- An exact natural result reduced to a byte is that result modulo 256 (R176). -/
theorem toNat_ofNat_byte (n : Nat) : ((BitVec.ofNat 8 n).toNat : Int) = n % 256 := by
  rw [← toNat_ofInt_byte, BitVec.ofInt_natCast]

/-- Settles O48: the byte each of the three writes is its exact result over the integers, reduced modulo 256. -/
theorem addSubMulWrap : Obligations.AddSubMulWrap := by
  have hadd : BinaryResult .add fun x y => x + y :=
    binaryResult_of_exec (fun x y => BitVec.ofNat 8 (x.toNat + y.toNat)) exec_add fun _ _ => toNat_ofNat_byte _
  have hsub : BinaryResult .sub fun x y => x - y :=
    binaryResult_of_exec (fun x y => BitVec.ofInt 8 (x.toNat - y.toNat)) exec_sub fun _ _ => toNat_ofInt_byte _
  have hmul : BinaryResult .mul fun x y => x * y :=
    binaryResult_of_exec (fun x y => BitVec.ofNat 8 (x.toNat * y.toNat)) exec_mul fun _ _ => toNat_ofNat_byte _
  exact ⟨fun _ _ _ => rfl, fun _ _ _ => rfl, fun _ _ _ => rfl, hadd, hsub, hmul,
    checksBoth_of_roles (fun _ _ => rfl) (fun _ _ => rfl), checksBoth_of_roles (fun _ _ => rfl) (fun _ _ => rfl),
    checksBoth_of_roles (fun _ _ => rfl) (fun _ _ => rfl), fetchFaultsAbove253⟩

/-! ## DIV and MOD -/

/-- The register an instruction writes holds the value written, in whatever state it answers. -/
theorem reg_of_exec_setReg {instr : Instr} {i : RegIndex} {v : Byte} {s t : State}
    (h : exec instr s = .next ((s.setReg i v).advance 3)) (ht : exec instr s = .next t) : t.reg i = v := by
  obtain rfl := Host.Outcome.next.inj (h.symm.trans ht)
  exact s.reg_setReg_self i v

/-- A quotient of bytes is a byte: DIV's result needs no reduction (R163). -/
theorem toNat_ofNat_div (x y : Byte) : (BitVec.ofNat 8 (x.toNat / y.toNat)).toNat = x.toNat / y.toNat :=
  (BitVec.toNat_ofNat ..).trans (Nat.mod_eq_of_lt ((Nat.div_le_self ..).trans_lt x.isLt))

/-- A remainder of bytes is a byte: MOD's result needs no reduction (R164). -/
theorem toNat_ofNat_mod (x y : Byte) : (BitVec.ofNat 8 (x.toNat % y.toNat)).toNat = x.toNat % y.toNat :=
  (BitVec.toNat_ofNat ..).trans (Nat.mod_eq_of_lt ((Nat.mod_le ..).trans_lt x.isLt))

/-- Settles O51: the two results are the quotient and the remainder of the natural numbers, which satisfy the division law. -/
theorem divModRelation : Obligations.DivModRelation := by
  intro i j s t u hy hdiv hmod
  have hpos : 0 < (s.reg j).toNat := Nat.pos_of_ne_zero fun hzero => hy (BitVec.eq_of_toNat_eq hzero)
  rw [reg_of_exec_setReg (exec_div s i j hy) hdiv, reg_of_exec_setReg (exec_mod s i j hy) hmod,
    toNat_ofNat_div, toNat_ofNat_mod]
  exact ⟨(Nat.div_add_mod' ..).symm, Nat.mod_lt _ hpos⟩

/-! ## AND, OR and XOR -/

/-- Settles O52: the three operations on bit vectors act on each bit alone. -/
theorem andOrXorBitByBit : Obligations.AndOrXorBitByBit := by
  have hand : BitwiseResult .and fun x y => x && y :=
    bitwiseResult_of_exec (fun x y => x &&& y) exec_and fun _ _ _ => BitVec.getLsbD_and
  have hor : BitwiseResult .or fun x y => x || y :=
    bitwiseResult_of_exec (fun x y => x ||| y) exec_or fun _ _ _ => BitVec.getLsbD_or
  have hxor : BitwiseResult .xor fun x y => x ^^ y :=
    bitwiseResult_of_exec (fun x y => x ^^^ y) exec_xor fun _ _ _ => BitVec.getLsbD_xor
  exact ⟨fun _ _ _ => rfl, fun _ _ _ => rfl, fun _ _ _ => rfl, hand, hor, hxor,
    checksBoth_of_roles (fun _ _ => rfl) (fun _ _ => rfl), checksBoth_of_roles (fun _ _ => rfl) (fun _ _ => rfl),
    checksBoth_of_roles (fun _ _ => rfl) (fun _ _ => rfl), fetchFaultsAbove253⟩

end Sys2Proof.Machine
end

section
/-! PROOFS. CMP (R170): FL is the one thing written besides the pc, and no frame speaks of FL. -/

namespace Sys2Proof.Machine

/-- Writing FL keeps every frame: a frame says nothing of FL. -/
theorem Frame.setFl {regs : List RegIndex} {stored : List Nat} {s t : State} (h : Frame regs stored s t) (v : Byte) :
    Frame regs stored s (t.setFl v) where
  regs := h.regs
  mem := h.mem
  written := h.written
  run := h.run
  halt := h.halt
  latches := h.latches
  params := h.params

/-! ## The flags CMP writes, one rule per order (R170) -/

/-- Equal: E alone. -/
theorem compareFlags_of_eq {x y : Byte} (h : x.toNat = y.toNat) : compareFlags x y = 0b00000001 :=
  if_pos h

/-- Greater: G alone. -/
theorem compareFlags_of_gt {x y : Byte} (h : x.toNat > y.toNat) : compareFlags x y = 0b00000010 :=
  (if_neg (Nat.ne_of_gt h)).trans (if_pos h)

/-- Less: L alone. -/
theorem compareFlags_of_lt {x y : Byte} (h : x.toNat < y.toNat) : compareFlags x y = 0b00000100 :=
  (if_neg (Nat.ne_of_lt h)).trans (if_neg (Nat.lt_asymm h))

/-- Settles O54: `exec_cmp` writes `compareFlags` to FL, whose value has a rule for each of the three orders, and advances
the pc by 3; both keep the frame. -/
theorem cmpSetsFlags : Obligations.CmpSetsFlags := by
  refine ⟨fun _ _ _ => rfl, fun i j s => ?_, checksBoth_of_roles (fun _ _ => rfl) (fun _ _ => rfl), fetchFaultsAbove253⟩
  exact ⟨_, exec_cmp s i j, compareFlags_of_eq, compareFlags_of_gt, compareFlags_of_lt,
    ((Frame.refl s).setFl _).advance 3, rfl, rfl⟩

end Sys2Proof.Machine
end

section
/-! PROOFS. Encoding and decoding (R60, R65, R70, R71). An instruction is built from its mnemonic and two bytes, of which its
operands are as many as its format has; both round trips follow from that, format by format. -/

namespace Sys2Proof

/-! ## Building an instruction from its mnemonic and two bytes -/

/-- An F1 instruction drops both bytes. -/
theorem Mnemonic.build_f1 {m : Mnemonic} (h : m.format = .f1) (a b a' b' : Byte) : m.build a b = m.build a' b' := by
  cases m <;> cases h <;> rfl

/-- An F2 instruction drops the second byte. -/
theorem Mnemonic.build_f2 {m : Mnemonic} (h : m.format = .f2) (a b b' : Byte) : m.build a b = m.build a b' := by
  cases m <;> cases h <;> rfl

/-- The operands are the first bytes, as many as the width leaves beside the opcode. -/
theorem Mnemonic.operands_build (m : Mnemonic) (a b : Byte) : (m.build a b).operands = [a, b].take (m.width - 1) := by
  cases m <;> rfl

/-- Every instruction is built from its mnemonic. -/
theorem Instr.exists_build (i : Instr) : ∃ a b, i.mnemonic.build a b = i := by
  cases i with
  | hlt | ret | nop => exact ⟨0, 0, rfl⟩
  | prn a | pra a | push a | pop a | call a | jmp a | jeq a | jne a | jgt a | jlt a | jge a | jle a => exact ⟨a, 0, rfl⟩
  | ldi a b | ld a b | st a b | add a b | sub a b | mul a b | div a b | mod a b | and a b | or a b | xor a b | shl a b
  | shr a b | cmp a b | inc a b | dec a b | not a b => exact ⟨a, b, rfl⟩

/-! ## The two round trips -/

/-- The encoding of a built instruction. -/
theorem OpcodeMap.encode_build (map : OpcodeMap) (m : Mnemonic) (a b : Byte) :
    map.encode (m.build a b) = map.opcode m :: [a, b].take (m.width - 1) := by
  rw [OpcodeMap.encode, Instr.mnemonic_build, m.operands_build]

/-- A known opcode followed by the bytes of its format decodes to the instruction built from them. -/
theorem OpcodeMap.decode_of_lookup {map : OpcodeMap} {op : Byte} {m : Mnemonic} (h : map.lookup op = some m) (a b : Byte)
    (rest : List Byte) : map.decode (op :: ([a, b].take (m.width - 1) ++ rest)) = .ok (m.build a b, rest) := by
  rw [OpcodeMap.decode, h]
  cases hf : m.format with
  | f1 => simp [Mnemonic.width, Format.width, hf, m.build_f1 hf a b 0 0]
  | f2 => simp [Mnemonic.width, Format.width, hf, m.build_f2 hf a b 0]
  | f3 => simp [Mnemonic.width, Format.width, hf]

/-- Bytes that decode are a known opcode, the operand bytes and the rest. -/
theorem OpcodeMap.decode_eq_ok {map : OpcodeMap} {bytes rest : List Byte} {i : Instr}
    (h : map.decode bytes = .ok (i, rest)) :
    ∃ op m a b, map.lookup op = some m ∧ i = m.build a b ∧ bytes = op :: ([a, b].take (m.width - 1) ++ rest) := by
  cases bytes with
  | nil => cases h
  | cons op tail =>
    simp only [OpcodeMap.decode] at h
    cases hm : map.lookup op with
    | none => simp [hm] at h
    | some m =>
      simp only [hm] at h
      split at h <;> cases h
      · exact ⟨op, m, 0, 0, hm, rfl, by simp [Mnemonic.width, Format.width, *]⟩
      · exact ⟨op, m, _, 0, hm, rfl, by simp [Mnemonic.width, Format.width, *]⟩
      · exact ⟨op, m, _, _, hm, rfl, by simp [Mnemonic.width, Format.width, *]⟩

/-- Settles O1: the opcode of an injective map is looked up to its mnemonic, and `decode_of_lookup` takes the operand bytes
of the format. -/
theorem decodeEncodeRoundTrip : Obligations.DecodeEncodeRoundTrip := by
  intro map hinj i rest
  obtain ⟨a, b, hi⟩ := i.exists_build
  rw [← hi, OpcodeMap.encode_build]
  exact OpcodeMap.decode_of_lookup (OpcodeMap.lookup_opcode hinj _) a b rest

/-- Settles O2: the bytes are taken apart by `decode_eq_ok`, and the opcode looked up is the one encoded. -/
theorem encodeDecodeRoundTrip : Obligations.EncodeDecodeRoundTrip := by
  intro map bytes rest i h
  obtain ⟨op, m, a, b, hm, rfl, rfl⟩ := OpcodeMap.decode_eq_ok h
  rw [OpcodeMap.encode_build, OpcodeMap.opcode_of_lookup hm, List.cons_append]

/-! ## The default map -/

/-- Settles O3: each word is decoded by computing. -/
theorem decodeSampleWords : Obligations.DecodeSampleWords := by
  unfold Obligations.DecodeSampleWords
  decide

/-- The bytes of no mnemonic are the unknown ones (R71). -/
theorem OpcodeMap.isSome_lookup {map : OpcodeMap} {op : Byte} :
    (map.lookup op).isSome ↔ op ∈ Mnemonic.all.map map.opcode := by
  simp [OpcodeMap.lookup]

/-- The bytes an injective map knows are the 32 of its mnemonics. -/
theorem OpcodeMap.length_known {map : OpcodeMap} (hinj : map.Injective) :
    ((List.range 256).filter fun n => (map.lookup (BitVec.ofNat 8 n)).isSome).length = 32 := by
  have hnodup : ((Mnemonic.all.map map.opcode).map BitVec.toNat).Nodup := hinj.map BitVec.toNat_injective
  have hperm : ((List.range 256).filter fun n => (map.lookup (BitVec.ofNat 8 n)).isSome).Perm
      ((Mnemonic.all.map map.opcode).map BitVec.toNat) := by
    refine (List.perm_ext_iff_of_nodup (List.nodup_range.filter _) hnodup).2 fun n => ?_
    rw [List.mem_filter, List.mem_range, OpcodeMap.isSome_lookup, List.mem_map (f := BitVec.toNat)]
    constructor
    · rintro ⟨hn, hmem⟩
      exact ⟨_, hmem, BitVec.toNat_ofNat .. |>.trans (Nat.mod_eq_of_lt hn)⟩
    · rintro ⟨op, hmem, rfl⟩
      exact ⟨op.isLt, by rwa [BitVec.ofNat_toNat, BitVec.setWidth_eq]⟩
  rw [hperm.length_eq, List.length_map, List.length_map]
  rfl

/-- An injective map leaves the other 224 bytes unknown. -/
theorem OpcodeMap.length_unknown {map : OpcodeMap} (hinj : map.Injective) :
    ((List.range 256).filter fun n => (map.lookup (BitVec.ofNat 8 n)).isNone).length = 224 := by
  have hsplit := List.length_eq_length_filter_add (l := List.range 256)
    fun n => (map.lookup (BitVec.ofNat 8 n)).isSome
  simp only [Option.not_isSome, List.length_range, OpcodeMap.length_known hinj] at hsplit
  omega

/-- Settles O4: the 32 bytes of the default map are distinct, so the other 224 are unknown; the rest is computed. -/
theorem defaultMapLeaves224Unknown : Obligations.DefaultMapLeaves224Unknown := by
  have hinj : OpcodeMap.default.Injective := by decide
  exact ⟨hinj, OpcodeMap.length_unknown hinj, by decide, by decide⟩

end Sys2Proof

namespace Sys2Proof.Machine

/-! ## Assembled lines (R73) -/

/-- What a byte assembled in a role is: a register is one of the eight, and an ignored byte is 0 (D25). -/
def AssembledAs (role : Role) (v : Byte) : Prop :=
  (role.isReg = true → v.toNat ≤ 7) ∧ (role = .ignored → v = 0)

/-- The byte that names a register is at most 7 (R21). -/
theorem regByte_toNat_le (i : RegIndex) : (regByte i).toNat ≤ 7 :=
  Nat.not_lt.1 fun h => by simpa using regIndex_eq_none.2 h

/-- An operand assembles to a byte of its role. -/
theorem AsmOperand.assembledAs_byte {role : Role} {o : AsmOperand} {v : Byte} (h : o.byte role = some v) :
    AssembledAs role v := by
  cases role with
  | reg use =>
    cases o with
    | reg i =>
      obtain rfl := Option.some.inj h
      exact ⟨fun _ => regByte_toNat_le i, nofun⟩
    | num => cases h
  | imm8 | addr8 => exact ⟨nofun, nofun⟩
  | ignored => cases h

/-- The operand bytes of a line are, role by role, bytes of those roles. -/
theorem forall₂_assembleOperands {roles : List Role} {operands : List AsmOperand} {bytes : List Byte}
    (h : assembleOperands roles operands = some bytes) : List.Forall₂ AssembledAs roles bytes := by
  induction roles, operands using assembleOperands.induct generalizing bytes with
  | case1 =>
    obtain rfl := Option.some.inj h
    exact .nil
  | case2 => cases h
  | case3 roles operands ih =>
    obtain ⟨rest, hrest, rfl⟩ := Option.map_eq_some_iff.1 h
    exact .cons ⟨nofun, fun _ => rfl⟩ (ih hrest)
  | case4 => simp [assembleOperands] at h
  | case5 role roles o operands _ v rest hrest hbyte ih =>
    simp only [assembleOperands, hbyte, hrest] at h
    obtain rfl := Option.some.inj h
    exact .cons (AsmOperand.assembledAs_byte hbyte) (ih hrest)
  | case6 => simp [assembleOperands] at h

/-- A mnemonic has a role for each byte of its width beside the opcode. -/
theorem length_roles (m : Mnemonic) : m.roles.length = m.width - 1 := by
  cases m <;> rfl

/-- Bytes as many as a mnemonic has roles are the operands of an instruction with that mnemonic. -/
theorem exists_operands_eq {m : Mnemonic} {bytes : List Byte} (h : bytes.length = m.roles.length) :
    ∃ i : Instr, i.mnemonic = m ∧ i.operands = bytes := by
  have hwidth : m.width - 1 ≤ 2 := by cases m <;> decide
  rw [length_roles] at h
  obtain ⟨a, b, hbytes⟩ : ∃ a b, [a, b].take bytes.length = bytes :=
    match bytes with
    | [] => ⟨0, 0, rfl⟩
    | [a] => ⟨a, 0, rfl⟩
    | [a, b] => ⟨a, b, rfl⟩
    | _ :: _ :: _ :: _ => by simp at h; omega
  exact ⟨m.build a b, Instr.mnemonic_build a b m, by rw [m.operands_build, ← h, hbytes]⟩

/-- An instruction whose operands are assembled in its roles is well-formed. -/
theorem wellFormed_of_assembledAs {i : Instr} (h : ∀ role v, (role, v) ∈ i.mnemonic.roles.zip i.operands → AssembledAs role v) :
    i.WellFormed := by
  intro r hr
  obtain ⟨⟨role, v⟩, hmem, rfl⟩ := List.mem_map.1 hr
  obtain ⟨hmem, hreg⟩ := List.mem_filter.1 hmem
  exact (h role v hmem).1 hreg

/-- Settles O6: the assembled operand bytes are the operands of an instruction with the line's mnemonic, whose encoding is
the line's bytes and decodes back to it; role by role they are register numbers, or 0 where ignored. -/
theorem assembledLineDecodes : Obligations.AssembledLineDecodes := by
  intro map l bytes hinj hassemble
  obtain ⟨operands, hoperands, rfl⟩ := Option.map_eq_some_iff.1 hassemble
  obtain ⟨hlength, hzip⟩ := List.forall₂_iff_zip.1 (forall₂_assembleOperands hoperands)
  obtain ⟨i, hm, rfl⟩ := exists_operands_eq hlength.symm
  rw [← hm] at hzip ⊢
  refine ⟨i, ?_, wellFormed_of_assembledAs fun _ _ => hzip, rfl, ?_⟩
  · simpa [OpcodeMap.encode] using decodeEncodeRoundTrip map hinj i []
  · rintro a b (rfl | rfl | rfl) <;>
      exact (hzip (a := .ignored) (b := b) (by simp [Instr.mnemonic, Mnemonic.roles, Instr.operands])).2 rfl

end Sys2Proof.Machine
end

section
/-! PROOFS. What an instruction can do, said once. A well-formed instruction has its register operands written as registers,
so that the equations of its form apply; an ill-formed one raises for its first bad operand (R21). From these, one inversion
of `exec`: its answer comes from the writes of the instruction's rule and one move of the pc, or is a halt. -/

namespace Sys2Proof.Machine

/-! ## The register operands of an instruction (R21, R65) -/

/-- A byte of at most 7 names a register. -/
theorem exists_eq_regByte {a : Byte} (h : a.toNat ≤ 7) : ∃ i, a = regByte i := by
  obtain ⟨i, hi⟩ := Option.ne_none_iff_exists'.1 (mt regIndex_eq_none.1 (Nat.not_lt.2 h))
  exact ⟨i, regIndex_eq_some.1 hi⟩

/-- The register operands are none, the first operand, or both operands. -/
theorem regOperands_cases (i : Instr) :
    i.regOperands = [] ∨
    (∃ a, i.regOperands = [a] ∧ i.operands.head? = some a ∧ (i.mnemonic.roles.map Role.isReg).head? = some true) ∨
    ∃ a b, i.regOperands = [a, b] ∧ i.operands = [a, b] ∧ i.mnemonic.roles.map Role.isReg = [true, true] := by
  cases i with
  | hlt | ret | nop | st => exact .inl rfl
  | ldi a | prn a | pra a | push a | pop a | call a | jmp a | jeq a | jne a | jgt a | jlt a | jge a | jle a | inc a | dec a
  | not a => exact .inr (.inl ⟨a, rfl, rfl, rfl⟩)
  | ld a b | add a b | sub a b | mul a b | div a b | mod a b | and a b | or a b | xor a b | shl a b | shr a b | cmp a b =>
    exact .inr (.inr ⟨a, b, rfl, rfl, rfl⟩)

/-- The first register operand above 7 is the one reported, before any effect of the instruction (D7). -/
theorem exec_of_find_regOperands {i : Instr} {r : Byte} (h : i.regOperands.find? (7 < ·.toNat) = some r) (s : State) :
    exec i s = .next (s.stop (.outOfBounds (.register r))) := by
  rcases regOperands_cases i with hnone | ⟨a, hregs, hhead, hroles⟩ | ⟨a, b, hregs, hops, hroles⟩
  · rw [hnone] at h
    cases h
  · rw [hregs] at h
    obtain ⟨hr, rfl⟩ : 7 < a.toNat ∧ a = r := by simpa [List.find?_cons_eq_some] using h
    exact exec_bad_first s hr hhead hroles
  · rw [hregs] at h
    by_cases ha : 7 < a.toNat
    · obtain rfl : a = r := by simpa [ha] using h
      exact exec_bad_first s ha (by rw [hops]; rfl) (by rw [hroles]; rfl)
    · obtain ⟨hr, rfl⟩ : 7 < b.toNat ∧ b = r := by simpa [ha] using h
      obtain ⟨k, rfl⟩ := exists_eq_regByte (Nat.not_lt.1 ha)
      exact exec_bad_second s hr hops hroles

/-- Settles O13: `exec_of_find_regOperands` gives the halt. -/
theorem registerOperandsAreChecked : Obligations.RegisterOperandsAreChecked := by
  intro i s r h
  rw [exec_of_find_regOperands h]
  exact raises_raise _ s

/-- An instruction that is not well-formed has a first register operand above 7. -/
theorem exists_find_regOperands {i : Instr} (h : ¬ i.WellFormed) :
    ∃ r, i.regOperands.find? (7 < ·.toNat) = some r := by
  rw [← Option.isSome_iff_exists]
  simpa [Instr.WellFormed] using h

/-- A well-formed instruction, with its register operands written as registers. -/
inductive Checked : Instr → Prop
  | hlt : Checked .hlt
  | ldi (i : RegIndex) (b : Byte) : Checked (.ldi (regByte i) b)
  | ld (i j : RegIndex) : Checked (.ld (regByte i) (regByte j))
  | st (a b : Byte) : Checked (.st a b)
  | prn (i : RegIndex) : Checked (.prn (regByte i))
  | pra (i : RegIndex) : Checked (.pra (regByte i))
  | push (i : RegIndex) : Checked (.push (regByte i))
  | pop (i : RegIndex) : Checked (.pop (regByte i))
  | call (i : RegIndex) : Checked (.call (regByte i))
  | ret : Checked .ret
  | jmp (i : RegIndex) : Checked (.jmp (regByte i))
  | jeq (i : RegIndex) : Checked (.jeq (regByte i))
  | jne (i : RegIndex) : Checked (.jne (regByte i))
  | jgt (i : RegIndex) : Checked (.jgt (regByte i))
  | jlt (i : RegIndex) : Checked (.jlt (regByte i))
  | jge (i : RegIndex) : Checked (.jge (regByte i))
  | jle (i : RegIndex) : Checked (.jle (regByte i))
  | add (i j : RegIndex) : Checked (.add (regByte i) (regByte j))
  | sub (i j : RegIndex) : Checked (.sub (regByte i) (regByte j))
  | mul (i j : RegIndex) : Checked (.mul (regByte i) (regByte j))
  | div (i j : RegIndex) : Checked (.div (regByte i) (regByte j))
  | mod (i j : RegIndex) : Checked (.mod (regByte i) (regByte j))
  | and (i j : RegIndex) : Checked (.and (regByte i) (regByte j))
  | or (i j : RegIndex) : Checked (.or (regByte i) (regByte j))
  | xor (i j : RegIndex) : Checked (.xor (regByte i) (regByte j))
  | shl (i j : RegIndex) : Checked (.shl (regByte i) (regByte j))
  | shr (i j : RegIndex) : Checked (.shr (regByte i) (regByte j))
  | cmp (i j : RegIndex) : Checked (.cmp (regByte i) (regByte j))
  | inc (i : RegIndex) (b : Byte) : Checked (.inc (regByte i) b)
  | dec (i : RegIndex) (b : Byte) : Checked (.dec (regByte i) b)
  | not (i : RegIndex) (b : Byte) : Checked (.not (regByte i) b)
  | nop : Checked .nop

/-- The register operands of a well-formed instruction are registers. -/
theorem checked_of_wellFormed {i : Instr} (h : i.WellFormed) : Checked i := by
  cases i with
  | hlt | ret | nop | st => constructor
  | ldi a | prn a | pra a | push a | pop a | call a | jmp a | jeq a | jne a | jgt a | jlt a | jge a | jle a | inc a | dec a
  | not a =>
    obtain ⟨i, rfl⟩ := exists_eq_regByte (h a (.head _))
    constructor
  | ld a b | add a b | sub a b | mul a b | div a b | mod a b | and a b | or a b | xor a b | shl a b | shr a b | cmp a b =>
    obtain ⟨i, rfl⟩ := exists_eq_regByte (h a (.head _))
    obtain ⟨j, rfl⟩ := exists_eq_regByte (h b (.tail _ (.head _)))
    constructor

/-! ## What an instruction writes -/

/-- `u` comes from `s` by writes that the rule of `i` makes, the pc still to be moved: the registers it names, the address
it stores to, the event of PRN or PRA, or the flags of CMP. -/
inductive Performs (i : Instr) (s : State) : State → Prop
  | refl : Performs i s s
  | emitDec (k : RegIndex) (h : i = .prn (regByte k)) : Performs i s (s.emit (.dec (s.reg k)))
  | emitChar (k : RegIndex) (h : i = .pra (regByte k)) : Performs i s (s.emit (.char (s.reg k)))
  | setFl (x y : Byte) (h : ∃ a b, i = .cmp a b) : Performs i s (s.setFl (compareFlags x y))
  | setReg {u : State} (k : RegIndex) (v : Byte) (hk : k ∈ writtenRegisters i) (h : Performs i s u) :
    Performs i s (u.setReg k v)
  | stored {u : State} (a : Byte) (v : Nat) (ha : storeAddress i s = some a.toNat) (h : Performs i s u) :
    Performs i s (u.stored a v)

/-- The reasons for which an instruction halts the block. -/
inductive Halts (i : Instr) (s : State) : HaltReason → Prop
  | hlt (h : i = .hlt) : Halts i s .hlt
  | badRegister (r : Byte) (h : ¬ i.WellFormed) : Halts i s (.outOfBounds (.register r))
  | divisionByZero (a b : Byte) (h : DividesByZero i s) : Halts i s (.divisionByZero a b)
  | moduloByZero (a b : Byte) (h : DividesByZero i s) : Halts i s (.moduloByZero a b)

/-- What an instruction answers: its writes and then one move of the pc, or a halt with nothing written. -/
inductive Executes (i : Instr) (s : State) : State → Prop
  | advance {u : State} (n : Nat) (hn : n ≤ 3) (h : Performs i s u) : Executes i s (u.advance n)
  | jump {u : State} (target : Byte) (h : Performs i s u) : Executes i s (u.jump target)
  | stop {r : HaltReason} (h : Halts i s r) : Executes i s (s.stop r)

section shapes

variable {i : Instr} {s : State}

/-- One register write, then the next instruction. -/
theorem Executes.setReg {k : RegIndex} {v : Byte} (hk : k ∈ writtenRegisters i) :
    Executes i s ((s.setReg k v).advance 3) :=
  .advance 3 (by decide) (.setReg k v hk .refl)

/-- A jump on a condition. -/
theorem Executes.jumpIf (condition : Bool) (target : Byte) :
    Executes i s (if condition then s.jump target else s.advance 2) := by
  cases condition with
  | false => exact .advance 2 (by decide) .refl
  | true => exact .jump target .refl

/-- A first operand that the operand table marks as written is a written register (R65). -/
theorem mem_writtenRegisters {k : RegIndex} (hop : i.operands.head? = some (regByte k))
    (hrole : i.mnemonic.roles.head? = some (.reg .written) ∨ i.mnemonic.roles.head? = some (.reg .readWritten)) :
    k ∈ writtenRegisters i := by
  obtain ⟨operands, hoperands⟩ := List.head?_eq_some_iff.1 hop
  refine List.mem_append_left _ (List.mem_filterMap.2 ?_)
  rcases hrole with hrole | hrole
  all_goals
    obtain ⟨roles, hroles⟩ := List.head?_eq_some_iff.1 hrole
    rw [hroles, hoperands]
    exact ⟨_, .head _, regIndex_regByte k⟩

/-- PUSH, POP, CALL and RET write the stack pointer (R22). -/
theorem spIndex_mem_writtenRegisters (h : i.mnemonic ∈ [.push, .pop, .call, .ret]) : spIndex ∈ writtenRegisters i := by
  refine List.mem_append_right _ ?_
  simp only [List.mem_cons, List.not_mem_nil, or_false] at h
  rcases h with h | h | h | h <;> simp [h]

end shapes

/-- A well-formed instruction answers a next state, of the shape `Executes` says. -/
theorem Checked.exec_executes {i : Instr} (h : Checked i) (s : State) : ∃ t, exec i s = .next t ∧ Executes i s t := by
  cases h with
  | hlt => exact ⟨_, exec_hlt s, .stop (.hlt rfl)⟩
  | nop => exact ⟨_, exec_nop s, .advance 1 (by decide) .refl⟩
  | ldi i b => exact ⟨_, exec_ldi s i b, .setReg (mem_writtenRegisters rfl (.inl rfl))⟩
  | ld i j => exact ⟨_, exec_ld s i j, .setReg (mem_writtenRegisters rfl (.inl rfl))⟩
  | st a b => exact ⟨_, exec_st s a b, .advance 3 (by decide) (.stored a _ rfl .refl)⟩
  | prn i => exact ⟨_, exec_prn s i, .advance 2 (by decide) (.emitDec i rfl)⟩
  | pra i =>
    refine ⟨_, exec_pra s i, .advance _ ?_ (.emitChar i rfl)⟩
    cases s.params.praAdvance <;> decide
  | push i =>
    exact ⟨_, exec_push s i, .advance 2 (by decide)
      (.stored _ _ rfl (.setReg spIndex _ (spIndex_mem_writtenRegisters (by simp [Instr.mnemonic])) .refl))⟩
  | pop i =>
    exact ⟨_, exec_pop s i, .advance 2 (by decide)
      (.setReg spIndex _ (spIndex_mem_writtenRegisters (by simp [Instr.mnemonic]))
        (.setReg i _ (mem_writtenRegisters rfl (.inl rfl)) .refl))⟩
  | call i =>
    exact ⟨_, exec_call s i, .jump _
      (.stored _ _ rfl (.setReg spIndex _ (spIndex_mem_writtenRegisters (by simp [Instr.mnemonic])) .refl))⟩
  | ret => exact ⟨_, exec_ret s, .jump _ (.setReg spIndex _ (spIndex_mem_writtenRegisters (by simp [Instr.mnemonic])) .refl)⟩
  | jmp i => exact ⟨_, exec_jmp s i, .jump _ .refl⟩
  | jeq i => exact ⟨_, exec_jeq s i, .jumpIf _ _⟩
  | jne i => exact ⟨_, exec_jne s i, .jumpIf _ _⟩
  | jgt i => exact ⟨_, exec_jgt s i, .jumpIf _ _⟩
  | jlt i => exact ⟨_, exec_jlt s i, .jumpIf _ _⟩
  | jge i => exact ⟨_, exec_jge s i, .jumpIf _ _⟩
  | jle i => exact ⟨_, exec_jle s i, .jumpIf _ _⟩
  | add i j => exact ⟨_, exec_add s i j, .setReg (mem_writtenRegisters rfl (.inr rfl))⟩
  | sub i j => exact ⟨_, exec_sub s i j, .setReg (mem_writtenRegisters rfl (.inr rfl))⟩
  | mul i j => exact ⟨_, exec_mul s i j, .setReg (mem_writtenRegisters rfl (.inr rfl))⟩
  | div i j =>
    by_cases hz : s.reg j = 0
    · exact ⟨_, exec_div_zero s i j hz, .stop (.divisionByZero _ _ ⟨_, _, j, .inl rfl, regIndex_regByte j, hz⟩)⟩
    · exact ⟨_, exec_div s i j hz, .setReg (mem_writtenRegisters rfl (.inr rfl))⟩
  | mod i j =>
    by_cases hz : s.reg j = 0
    · exact ⟨_, exec_mod_zero s i j hz, .stop (.moduloByZero _ _ ⟨_, _, j, .inr rfl, regIndex_regByte j, hz⟩)⟩
    · exact ⟨_, exec_mod s i j hz, .setReg (mem_writtenRegisters rfl (.inr rfl))⟩
  | and i j => exact ⟨_, exec_and s i j, .setReg (mem_writtenRegisters rfl (.inr rfl))⟩
  | or i j => exact ⟨_, exec_or s i j, .setReg (mem_writtenRegisters rfl (.inr rfl))⟩
  | xor i j => exact ⟨_, exec_xor s i j, .setReg (mem_writtenRegisters rfl (.inr rfl))⟩
  | shl i j => exact ⟨_, exec_shl s i j, .setReg (mem_writtenRegisters rfl (.inr rfl))⟩
  | shr i j => exact ⟨_, exec_shr s i j, .setReg (mem_writtenRegisters rfl (.inr rfl))⟩
  | cmp i j => exact ⟨_, exec_cmp s i j, .advance 3 (by decide) (.setFl _ _ ⟨_, _, rfl⟩)⟩
  | inc i b => exact ⟨_, exec_inc s i b, .setReg (mem_writtenRegisters rfl (.inr rfl))⟩
  | dec i b => exact ⟨_, exec_dec s i b, .setReg (mem_writtenRegisters rfl (.inr rfl))⟩
  | not i b => exact ⟨_, exec_not s i b, .advance 3 (by decide) .refl⟩

/-- Every instruction answers a next state, of the shape `Executes` says. -/
theorem exec_executes (i : Instr) (s : State) : ∃ t, exec i s = .next t ∧ Executes i s t := by
  by_cases hwf : i.WellFormed
  · exact (checked_of_wellFormed hwf).exec_executes s
  · obtain ⟨r, hr⟩ := exists_find_regOperands hwf
    exact ⟨_, exec_of_find_regOperands hr s, .stop (.badRegister r hwf)⟩

/-- A next state of an instruction has the shape `Executes` says. -/
theorem executes_of_exec {i : Instr} {s t : State} (h : exec i s = .next t) : Executes i s t := by
  obtain ⟨t', ht, hshape⟩ := exec_executes i s
  obtain rfl := Host.Outcome.next.inj (h.symm.trans ht)
  exact hshape

/-- Settles O11: one of the shapes of `exec_executes`. -/
theorem everyInstructionAnswersNext : Obligations.EveryInstructionAnswersNext := fun i s =>
  (exec_executes i s).imp fun _ h => h.1

end Sys2Proof.Machine
end

section
/-! PROOFS. Whole-machine facts of one instruction (R20, R24, R43, R47, R53, R120, R175, R205): what the writes of `Performs`
keep, by induction on them, and from that what every next state of `exec` keeps. -/

namespace Sys2Proof.Machine

/-! ## What the writes of an instruction keep -/

namespace Performs

variable {i : Instr} {s u : State}

/-- No write moves the pc or touches the run state, the halt reason or the parameters. -/
theorem kept (h : Performs i s u) : u.pc = s.pc ∧ u.run = s.run ∧ u.halt = s.halt ∧ u.params = s.params := by
  induction h with
  | refl | emitDec | emitChar | setFl => exact ⟨rfl, rfl, rfl, rfl⟩
  | setReg _ _ _ _ ih | stored _ _ _ _ ih => exact ih

/-- A register the rule does not name is as before. -/
theorem reg_eq (h : Performs i s u) {k : RegIndex} (hk : k ∉ writtenRegisters i) : u.reg k = s.reg k := by
  induction h with
  | refl | emitDec | emitChar | setFl => rfl
  | setReg k' v hk' _ ih => rw [State.reg_setReg_of_ne _ v (ne_of_mem_of_not_mem hk' hk).symm, ih]
  | stored _ _ _ _ ih => exact ih

/-- FL is as before, or CMP has written one of its three values (R170). -/
theorem fl_cases (h : Performs i s u) :
    u.fl = s.fl ∨ ((∃ a b, i = .cmp a b) ∧ (u.fl = 0x01 ∨ u.fl = 0x02 ∨ u.fl = 0x04)) := by
  induction h with
  | refl | emitDec | emitChar => exact .inl rfl
  | setFl x y hi =>
    refine .inr ⟨hi, ?_⟩
    rw [State.fl_setFl, compareFlags]
    split_ifs <;> simp
  | setReg _ _ _ _ ih | stored _ _ _ _ ih => exact ih

/-- The output is as before, or PRN or PRA has sent its event (R120). -/
theorem out_cases (h : Performs i s u) :
    u.out = s.out ∨
    (∃ k, i = .prn (regByte k) ∧ u.out = s.out ++ [.dec (s.reg k)]) ∨
    (∃ k, i = .pra (regByte k) ∧ u.out = s.out ++ [.char (s.reg k)]) := by
  induction h with
  | refl | setFl => exact .inl rfl
  | emitDec k hi => exact .inr (.inl ⟨k, hi, rfl⟩)
  | emitChar k hi => exact .inr (.inr ⟨k, hi, rfl⟩)
  | setReg _ _ _ _ ih | stored _ _ _ _ ih => exact ih

/-- Every write keeps the canonical form of memory. -/
theorem memWf (h : Performs i s u) (hwf : s.mem.wf) : u.mem.wf := by
  induction h with
  | refl | emitDec | emitChar | setFl => exact hwf
  | setReg _ _ _ _ ih => exact ih
  | @stored u a v _ _ ih => exact u.memWf_stored a v ih

/-- Every write keeps the form of W. -/
theorem writtenWf (h : Performs i s u) (hwf : WrittenWf s.written) : WrittenWf u.written := by
  induction h with
  | refl | emitDec | emitChar | setFl => exact hwf
  | setReg _ _ _ _ ih => exact ih
  | @stored u a v _ _ ih => exact u.writtenWf_stored a v ih

/-- W keeps its addresses (R53). -/
theorem mem_written (h : Performs i s u) {x : Nat} (hx : x ∈ s.written) : x ∈ u.written := by
  induction h with
  | refl | emitDec | emitChar | setFl => exact hx
  | setReg _ _ _ _ ih => exact ih
  | stored a v _ _ ih =>
    rw [State.written_stored, mem_insertAddress]
    exact .inr ih

/-- W gains no address but the one the instruction stores to (R53). -/
theorem mem_or_eq_of_mem_written (h : Performs i s u) {x : Nat} (hx : x ∈ u.written) :
    x ∈ s.written ∨ storeAddress i s = some x := by
  induction h with
  | refl | emitDec | emitChar | setFl => exact .inl hx
  | setReg _ _ _ _ ih => exact ih hx
  | stored a v ha _ ih =>
    rw [State.written_stored, mem_insertAddress] at hx
    rcases hx with rfl | hx
    · exact .inr ha
    · exact ih hx

/-- Memory reads as before but at the address the instruction stores to (R47). -/
theorem read_eq (h : Performs i s u) (hwf : s.mem.wf) {x : Nat} (hx : storeAddress i s ≠ some x) :
    u.mem.read x = s.mem.read x := by
  induction h with
  | refl | emitDec | emitChar | setFl => rfl
  | setReg _ _ _ _ ih => exact ih
  | stored a v ha hu ih =>
    have hne : x ≠ a.toNat := fun e => hx (e ▸ ha)
    rw [State.read_stored_of_ne (hu.memWf hwf) v hne, ih]

/-- Memory reads as before outside the new W (R53). -/
theorem read_eq_of_not_mem_written (h : Performs i s u) (hwf : s.mem.wf) {x : Nat} (hx : x ∉ u.written) :
    u.mem.read x = s.mem.read x := by
  induction h with
  | refl | emitDec | emitChar | setFl => rfl
  | setReg _ _ _ _ ih => exact ih hx
  | stored a v ha hu ih =>
    rw [State.written_stored, mem_insertAddress, not_or] at hx
    rw [State.read_stored_of_ne (hu.memWf hwf) v hx.1, ih hx.2]

end Performs

/-! ## The halts of an instruction -/

/-- An instruction's reason to halt is a hardware halt, and none of R175. -/
theorem Halts.ne {i : Instr} {s : State} {r : HaltReason} (h : Halts i s r) :
    r ≠ .none ∧ r ≠ .selfModifyingCode ∧ ∀ op, r ≠ .unsupportedOperation op := by
  cases h <;> exact ⟨nofun, nofun, nofun⟩

/-- A well-formed instruction other than HLT, with no zero divisor, has no reason to halt. -/
theorem not_halts {i : Instr} {s : State} (hwf : i.WellFormed) (hdiv : ¬ DividesByZero i s) (hhlt : i ≠ .hlt)
    (r : HaltReason) : ¬ Halts i s r := by
  intro h
  cases h with
  | hlt h => exact hhlt h
  | badRegister _ h => exact h hwf
  | divisionByZero _ _ h | moduloByZero _ _ h => exact hdiv h

/-- Settles O14: with no reason to halt the instruction only writes and moves the pc, which keeps both. -/
theorem wellFormedInstructionDoesNotHalt : Obligations.WellFormedInstructionDoesNotHalt := by
  intro i s hwf hdiv hhlt
  obtain ⟨t, ht, hshape⟩ := exec_executes i s
  refine ⟨t, ht, ?_⟩
  cases hshape with
  | advance _ _ h | jump _ h =>
    obtain ⟨-, hrun, hhalt, -⟩ := h.kept
    exact ⟨hrun, hhalt⟩
  | stop h => exact absurd h (not_halts hwf hdiv hhlt _)

/-- Settles O15: an instruction that does not halt keeps the halt reason, and no reason of `Halts` is
`UnsupportedOperation`. -/
theorem unsupportedOperationIsUnreachable : Obligations.UnsupportedOperationIsUnreachable := by
  intro i s t op ht hs
  cases executes_of_exec ht with
  | advance _ _ h | jump _ h =>
    obtain ⟨-, -, hhalt, -⟩ := h.kept
    exact fun e => hs (hhalt.symm.trans e)
  | stop h =>
    obtain ⟨-, -, hunsupported⟩ := h.ne
    exact hunsupported op

/-! ## Frames of all instructions -/

/-- Settles O25: a halt sends nothing, and of the writes only those of PRN and PRA send an event. -/
theorem outputOnlyGrows : Obligations.OutputOnlyGrows := by
  intro i s t ht
  cases executes_of_exec ht with
  | advance _ _ h | jump _ h => exact h.out_cases
  | stop => exact .inl rfl

/-- Settles O26: of the writes only CMP's are to FL. -/
theorem onlyCmpWritesFlags : Obligations.OnlyCmpWritesFlags := by
  intro i s t hcmp ht _
  cases executes_of_exec ht with
  | advance _ _ h | jump _ h =>
    refine h.fl_cases.resolve_right ?_
    rintro ⟨⟨a, b, hi⟩, -⟩
    exact hcmp a b hi
  | stop => rfl

/-- Settles O28: every register write is to a written register. -/
theorem onlyNamedRegistersChange : Obligations.OnlyNamedRegistersChange := by
  intro i s t ht _ k hk
  cases executes_of_exec ht with
  | advance _ _ h | jump _ h => exact h.reg_eq hk
  | stop => rfl

/-- Settles O29: every store is to the instruction's address. -/
theorem onlyStoresChangeMemory : Obligations.OnlyStoresChangeMemory := by
  intro i s t hwf ht _ a ha
  cases executes_of_exec ht with
  | advance _ _ h | jump _ h => exact h.read_eq hwf ha
  | stop => rfl

/-! ## No instruction but the conditional jumps reads FL (R24) -/

/-- From a state with another FL the instruction answers the same next state, but for FL. -/
def IgnoresFl (i : Instr) (s : State) (f : Byte) : Prop :=
  ∃ t f', exec i s = .next t ∧ exec i (s.setFl f) = .next (t.setFl f')

/-- The two equations of a form agree but for FL, which CMP overwrites. -/
theorem Checked.ignoresFl {i : Instr} (h : Checked i)
    (hjump : ∀ a, i ≠ .jeq a ∧ i ≠ .jne a ∧ i ≠ .jgt a ∧ i ≠ .jlt a ∧ i ≠ .jge a ∧ i ≠ .jle a) (s : State) (f : Byte) :
    IgnoresFl i s f := by
  cases h with
  | hlt => exact ⟨_, f, exec_hlt s, exec_hlt (s.setFl f)⟩
  | nop => exact ⟨_, f, exec_nop s, exec_nop (s.setFl f)⟩
  | ldi i b => exact ⟨_, f, exec_ldi s i b, exec_ldi (s.setFl f) i b⟩
  | ld i j => exact ⟨_, f, exec_ld s i j, exec_ld (s.setFl f) i j⟩
  | st a b => exact ⟨_, f, exec_st s a b, exec_st (s.setFl f) a b⟩
  | prn i => exact ⟨_, f, exec_prn s i, exec_prn (s.setFl f) i⟩
  | pra i => exact ⟨_, f, exec_pra s i, exec_pra (s.setFl f) i⟩
  | push i => exact ⟨_, f, exec_push s i, exec_push (s.setFl f) i⟩
  | pop i => exact ⟨_, f, exec_pop s i, exec_pop (s.setFl f) i⟩
  | call i => exact ⟨_, f, exec_call s i, exec_call (s.setFl f) i⟩
  | ret => exact ⟨_, f, exec_ret s, exec_ret (s.setFl f)⟩
  | jmp i => exact ⟨_, f, exec_jmp s i, exec_jmp (s.setFl f) i⟩
  | add i j => exact ⟨_, f, exec_add s i j, exec_add (s.setFl f) i j⟩
  | sub i j => exact ⟨_, f, exec_sub s i j, exec_sub (s.setFl f) i j⟩
  | mul i j => exact ⟨_, f, exec_mul s i j, exec_mul (s.setFl f) i j⟩
  | and i j => exact ⟨_, f, exec_and s i j, exec_and (s.setFl f) i j⟩
  | or i j => exact ⟨_, f, exec_or s i j, exec_or (s.setFl f) i j⟩
  | xor i j => exact ⟨_, f, exec_xor s i j, exec_xor (s.setFl f) i j⟩
  | shl i j => exact ⟨_, f, exec_shl s i j, exec_shl (s.setFl f) i j⟩
  | shr i j => exact ⟨_, f, exec_shr s i j, exec_shr (s.setFl f) i j⟩
  | div i j =>
    by_cases hz : s.reg j = 0
    · exact ⟨_, f, exec_div_zero s i j hz, exec_div_zero (s.setFl f) i j hz⟩
    · exact ⟨_, f, exec_div s i j hz, exec_div (s.setFl f) i j hz⟩
  | mod i j =>
    by_cases hz : s.reg j = 0
    · exact ⟨_, f, exec_mod_zero s i j hz, exec_mod_zero (s.setFl f) i j hz⟩
    · exact ⟨_, f, exec_mod s i j hz, exec_mod (s.setFl f) i j hz⟩
  | cmp i j => exact ⟨_, _, exec_cmp s i j, exec_cmp (s.setFl f) i j⟩
  | inc i b => exact ⟨_, f, exec_inc s i b, exec_inc (s.setFl f) i b⟩
  | dec i b => exact ⟨_, f, exec_dec s i b, exec_dec (s.setFl f) i b⟩
  | not i b => exact ⟨_, f, exec_not s i b, exec_not (s.setFl f) i b⟩
  | jeq i | jne i | jgt i | jlt i | jge i | jle i => simp at hjump

/-- Settles O27: an ill-formed instruction raises for the same operand, and a well-formed one is `Checked.ignoresFl`. -/
theorem onlyConditionalJumpsReadFlags : Obligations.OnlyConditionalJumpsReadFlags := by
  intro i s t f hjump ht
  have hignores : IgnoresFl i s f := by
    by_cases hwf : i.WellFormed
    · exact (checked_of_wellFormed hwf).ignoresFl hjump s f
    · obtain ⟨r, hr⟩ := exists_find_regOperands hwf
      exact ⟨_, f, exec_of_find_regOperands hr s, exec_of_find_regOperands hr (s.setFl f)⟩
  obtain ⟨t', f', hs, hf⟩ := hignores
  obtain rfl : t' = t := Host.Outcome.next.inj (hs.symm.trans ht)
  exact ⟨t'.setFl f', hf, rfl, rfl, fun _ => rfl⟩

end Sys2Proof.Machine
end

section
/-! PROOFS. What one step can do, said once (R61, R206): it leaves a halted block, refuses a written byte, raises in the fetch
or for an unknown opcode, or executes the decoded instruction. The statements about the step and the invariants of runs
follow from it. -/

namespace Sys2Proof.Machine

/-! ## The step past its fetch -/

/-- The step of a running block that finds three bytes at the pc is the issue of them. -/
theorem step_of_reads {s : State} (hrun : s.run = .running) {op a b : Byte} (hop : s.mem.read s.pc.toNat = some op)
    (ha : s.mem.read (s.pc.toNat + 1) = some a) (hb : s.mem.read (s.pc.toNat + 2) = some b) :
    step s = issue (s.latched op a b) := by
  rw [step_running hrun, fetch_of_reads hop ha hb]

/-- Up to 253 all three bytes of the fetch are inside memory. -/
theorem exists_reads {s : State} (hpc : s.pc.toNat ≤ 253) :
    ∃ op a b, s.mem.read s.pc.toNat = some op ∧ s.mem.read (s.pc.toNat + 1) = some a ∧
      s.mem.read (s.pc.toNat + 2) = some b :=
  ⟨_, _, _, s.mem.read_of_le (by omega), s.mem.read_of_le (by omega), s.mem.read_of_le (by omega)⟩

/-- Settles O7: the bytes are fetched into the latches, their opcode is the one looked up, and none of its bytes is in W. -/
theorem stepRunsDecodedInstruction : Obligations.StepRunsDecodedInstruction := by
  intro s op a b i rest hrun hop ha hb hdecode hfresh
  obtain ⟨m, hm, rfl⟩ := Option.map_eq_some_iff.1 (OpcodeMap.decode_three hdecode)
  rw [Instr.mnemonic_build] at hfresh
  rw [step_of_reads hrun hop ha hb]
  exact issue_of_lookup (s := s.latched op a b) hm hfresh

/-- Settles O8: the fetch error that several instructions' statements share. -/
theorem fetchAbove253RaisesOutOfBounds : Obligations.FetchAbove253RaisesOutOfBounds := fetchFaultsAbove253

/-- Settles O9: of the three answers of the issue, a refusal needs the opcode in W and an execution needs it known. -/
theorem unknownOpcodeRaises : Obligations.UnknownOpcodeRaises := by
  intro s op hrun hpc hop hunknown hfresh
  obtain ⟨_, a, b, -, ha, hb⟩ := exists_reads hpc
  rw [step_of_reads hrun hop ha hb]
  rcases issue_cases (s.latched op a b) with ⟨hused, -⟩ | ⟨-, -, hraise⟩ | ⟨-, m, hm, -⟩
  · obtain ⟨k, hk, hmem⟩ := usesWritten_iff.1 hused
    have hwidth : usedWidth s.params.opcodeMap op = 1 := by simp [usedWidth, hunknown]
    obtain rfl : k = 0 := Nat.lt_one_iff.1 (hwidth ▸ hk)
    exact absurd hmem hfresh
  · rw [hraise]
    exact raises_raise _ (s.latched op a b)
  · cases hunknown.symm.trans hm

/-- Past the fetch, the refusal is exactly of a byte in W. -/
theorem issue_eq_refused_iff {s : State} :
    issue s = .refused .selfModifyingCode ↔
      usesWritten s s.pc.toNat (usedWidth s.params.opcodeMap s.ir) = true := by
  rcases issue_cases s with ⟨hused, h⟩ | ⟨hused, -, h⟩ | ⟨hused, m, -, h⟩
  · simp [h, hused]
  · simp [h, hused]
  · obtain ⟨t, ht, -⟩ := exec_executes (m.build s.opA s.opB) s
    simp [h, ht, hused]

/-- Settles O10: a halted block and a fetch out of bounds answer next states, and past the fetch the issue decides. -/
theorem refusedExactlyOnWrittenBytes : Obligations.RefusedExactlyOnWrittenBytes := by
  refine fun s => ⟨?_, fun h => by rw [h]; exact ⟨rfl, rfl⟩⟩
  rcases hrun : s.run with _ | _
  · by_cases hpc : s.pc.toNat ≤ 253
    · obtain ⟨op, a, b, hop, ha, hb⟩ := exists_reads hpc
      rw [step_of_reads hrun hop ha hb, issue_eq_refused_iff, usesWritten_iff]
      simp [hop, hpc]
    · obtain ⟨t, ht, -⟩ := fetchFaultsAbove253 s hrun (Nat.not_le.1 hpc)
      simp [ht, hpc]
  · simp [step_halted hrun]

/-! ## The next states of a step -/

/-- The next states of a step: a halted block's own, an error of the fetch or the look-up, with some latches loaded, or what
the decoded instruction answers with all three loaded. -/
inductive Steps (s : State) : State → Prop
  | halted (h : s.run = .halted) : Steps s s
  | outOfBounds (hrun : s.run = .running) (op a b : Byte) (address : Nat) :
    Steps s ((s.latched op a b).stop (.outOfBounds (.memory address)))
  | unknownOpcode (hrun : s.run = .running) (op a b : Byte) : Steps s ((s.latched op a b).stop (.unknownOpcode op))
  | executes {t : State} (hrun : s.run = .running) (hpc : s.pc.toNat ≤ 253) (op a b : Byte) (i : Instr)
    (h : Executes i (s.latched op a b) t) : Steps s t

/-- A next state of a step is one of those `Steps` says. -/
theorem steps_of_step {s t : State} (h : step s = .next t) : Steps s t := by
  rcases hrun : s.run with _ | _
  · rw [step_running hrun] at h
    rcases fetch_cases s issue with ⟨op, a, b, -, -, hb, hissue⟩ | ⟨-, op, a, hraise⟩
    · rw [hissue] at h
      rcases issue_cases (s.latched op a b) with ⟨-, hr⟩ | ⟨-, -, hr⟩ | ⟨-, m, -, hr⟩
      · cases h.symm.trans hr
      · obtain rfl := Host.Outcome.next.inj (hr.symm.trans h)
        exact .unknownOpcode hrun op a b
      · exact .executes hrun (le_253_of_read_add_two hb) op a b _ (executes_of_exec (hr.symm.trans h))
    · obtain rfl := Host.Outcome.next.inj (hraise.symm.trans h)
      exact .outOfBounds hrun op a s.opB _
  · obtain rfl := Host.Outcome.next.inj ((step_halted hrun).symm.trans h)
    exact .halted hrun

/-- Settles O24: errors and instructions keep the parameters. -/
theorem stepKeepsParameters : Obligations.StepKeepsParameters := by
  intro s t ht
  cases steps_of_step ht with
  | halted | outOfBounds | unknownOpcode => rfl
  | executes _ _ op a b i h =>
    cases h with
    | advance _ _ h | jump _ h =>
      obtain ⟨-, -, -, hparams⟩ := h.kept
      exact hparams
    | stop => rfl

/-! ## The invariant of runs -/

/-- A halt for a reason of the hardware keeps the invariant. -/
theorem State.Inv.stop {s : State} (h : s.Inv) {r : HaltReason} (hnone : r ≠ .none) (hself : r ≠ .selfModifyingCode) :
    (s.stop r).Inv := by
  obtain ⟨hmem, hwritten, -, -, -⟩ := h
  exact ⟨hmem, hwritten, nofun, ⟨nofun, fun e => absurd e hnone⟩, hself⟩

/-- A move from a pc of at most 253 leaves a pc of at most 256 (R23). -/
theorem pc_advance_toNat_le {s : State} (hpc : s.pc.toNat ≤ 253) {n : Nat} (hn : n ≤ 3) : (s.advance n).pc.toNat ≤ 256 := by
  rw [State.pc_advance, BitVec.toNat_add, BitVec.toNat_ofNat]
  omega

/-- The writes of an instruction, with any pc of at most 256 after them, keep the invariant of a running block. -/
theorem Performs.inv {i : Instr} {s u : State} (h : Performs i s u) (hinv : s.Inv) (hrun : s.run = .running) {pc : PcWord}
    (hpc : pc.toNat ≤ 256) : State.Inv { u with pc := pc } := by
  obtain ⟨hmem, hwritten, hrunning, hhalt, hself⟩ := hinv
  obtain ⟨-, hrun', hhalt', -⟩ := h.kept
  refine ⟨h.memWf hmem, h.writtenWf hwritten, fun _ => ⟨hpc, ?_⟩, ?_, ?_⟩
  · obtain ⟨-, hfl⟩ := hrunning hrun
    rcases h.fl_cases with hsame | ⟨-, hcmp⟩
    · exact hsame ▸ hfl
    · exact .inr hcmp
  · exact hrun' ▸ hhalt' ▸ hhalt
  · exact hhalt' ▸ hself

/-- Settles O19: errors keep the invariant as halts of the hardware; an instruction runs with a pc of at most 253, from which
its move leaves the pc in range, and its writes keep the rest. -/
theorem stepKeepsInvariant : Obligations.StepKeepsInvariant := by
  intro s t hinv ht
  cases steps_of_step ht with
  | halted => exact hinv
  | outOfBounds _ op a b | unknownOpcode _ op a b =>
    exact State.Inv.stop (s := s.latched op a b) hinv nofun nofun
  | executes hrun hpc op a b i h =>
    have hlatched : (s.latched op a b).Inv := hinv
    cases h with
    | advance n hn h =>
      obtain ⟨hpc', -⟩ := h.kept
      exact h.inv hlatched hrun (pc_advance_toNat_le (hpc' ▸ hpc) hn)
    | jump target h =>
      refine h.inv hlatched hrun ?_
      rw [BitVec.toNat_setWidth_of_le (by decide)]
      omega
    | stop h =>
      obtain ⟨hnone, hself, -⟩ := h.ne
      exact hlatched.stop hnone hself

/-! ## Memory outside W -/

/-- Settles O22: an instruction that completes stores to at most one address, which W gains; every other next state has the
memory and the W it came from. -/
theorem stepKeepsUnwrittenBytes : Obligations.StepKeepsUnwrittenBytes := by
  intro s t hwf ht _
  cases steps_of_step ht with
  | halted | outOfBounds | unknownOpcode => exact ⟨fun _ => id, ⟨0, fun _ => .inl⟩, fun _ _ => rfl⟩
  | executes _ _ op a b i h =>
    cases h with
    | advance _ _ h | jump _ h =>
      refine ⟨fun _ => h.mem_written, ⟨(storeAddress i (s.latched op a b)).getD 0, fun x hx => ?_⟩,
        fun _ hx => h.read_eq_of_not_mem_written hwf hx⟩
      refine (h.mem_or_eq_of_mem_written hx).imp_right fun hstore => ?_
      rw [hstore, Option.getD_some]
    | stop => exact ⟨fun _ => id, ⟨0, fun _ => .inl⟩, fun _ _ => rfl⟩

/-- Every step keeps the canonical form of memory. -/
theorem memWf_of_step {s t : State} (hwf : s.mem.wf) (ht : step s = .next t) : t.mem.wf := by
  cases steps_of_step ht with
  | halted | outOfBounds | unknownOpcode => exact hwf
  | executes _ _ op a b i h =>
    cases h with
    | advance _ _ h | jump _ h => exact h.memWf hwf
    | stop => exact hwf

/-- Settles O58: a cell outside the new W was outside the old one, and reads as before. -/
theorem stepKeepsImageOutsideWritten : Obligations.StepKeepsImageOutsideWritten := by
  intro image s t himage ht hno
  obtain ⟨hwf, hread⟩ := himage
  obtain ⟨hkeep, -, hsame⟩ := stepKeepsUnwrittenBytes s t hwf ht hno
  refine ⟨memWf_of_step hwf ht, fun a ha hat => ?_⟩
  rw [hsame a hat]
  exact hread a ha fun has => hat (hkeep a has)

end Sys2Proof.Machine
end

section
/-! PROOFS. The reset sequence (R29, R230, R234), and the runs that begin with it. -/

namespace Sys2Proof.Machine

/-! ## Reset -/

/-- Every cell of the reset memory is 0 (R29). -/
theorem read_resetWith (params : Params) {a : Nat} (ha : a ≤ 255) : (State.resetWith params).mem.read a = some 0 :=
  Memory.read_of_le _ ha

/-- At reset every register but the stack pointer is 0 (R29). -/
theorem reg_resetWith_of_ne (params : Params) {k : RegIndex} (hk : k ≠ spIndex) : (State.resetWith params).reg k = 0 :=
  match k, hk with
  | 0, _ | 1, _ | 2, _ | 3, _ | 4, _ | 5, _ | 6, _ => rfl
  | 7, hk => absurd rfl hk

/-- Settles O17: each field of the reset state, and each default, by its definition. -/
theorem resetState : Obligations.ResetState :=
  ⟨fun params => ⟨fun _ => reg_resetWith_of_ne params, rfl, rfl, rfl, rfl, rfl, fun _ => read_resetWith params,
    rfl, rfl, rfl⟩, rfl, rfl, rfl, rfl, rfl⟩

/-- The reset state satisfies the invariant whatever canonical memory the loader leaves. -/
theorem inv_resetWith (params : Params) {m : Memory} (hm : m.wf) :
    State.Inv { State.resetWith params with mem := m } :=
  ⟨hm, ⟨.nil, nofun⟩, fun _ => ⟨Nat.zero_le _, .inl rfl⟩, ⟨fun _ => rfl, fun _ => rfl⟩, nofun⟩

/-- Settles O20: the reset memory is the empty one. -/
theorem resetSatisfiesInvariant : Obligations.ResetSatisfiesInvariant := inv_resetWith Params.default Memory.wf_empty

/-! ## The loader -/

/-- A write inside memory answers a memory. -/
theorem Memory.exists_write (m : Memory) {a : Nat} (ha : a ≤ 255) (v : Nat) : ∃ n, m.write a v = some n := by
  obtain ⟨a, rfl⟩ := exists_byte_toNat_eq ha
  exact ⟨_, m.write_byte a v⟩

/-- Loading an image keeps the canonical form. -/
theorem Memory.wf_load {m : Memory} (hm : m.wf) (p : Nat) (image : List Byte) : (m.load p image).wf := by
  induction image generalizing m p with
  | nil => exact hm
  | cons v rest ih =>
    refine ih ?_ (p + 1)
    cases hw : m.write p v.toNat with
    | none => exact hm
    | some n => exact Memory.wf_write hm hw

/-- An image that fits stands in the cells from `p` on, and every other cell is as before (R234). -/
theorem Memory.read_load {m : Memory} (hm : m.wf) {p : Nat} {image : List Byte} (hfit : p + image.length ≤ 256) (a : Nat) :
    (m.load p image).read a = if p ≤ a then image[a - p]?.or (m.read a) else m.read a := by
  induction image generalizing m p with
  | nil => simp [Memory.load]
  | cons v rest ih =>
    rw [List.length_cons] at hfit
    obtain ⟨n, hn⟩ := m.exists_write (a := p) (by omega) v.toNat
    have hread := Memory.read_write hm hn a
    rw [BitVec.ofNat_toNat, BitVec.setWidth_eq] at hread
    rw [Memory.load, hn, Option.getD_some, ih (Memory.wf_write hm hn) (by omega), hread]
    rcases Nat.lt_trichotomy p a with hlt | rfl | hlt
    · have hcons : a - p = a - (p + 1) + 1 := by omega
      rw [if_pos (Nat.succ_le_of_lt hlt), if_neg hlt.ne, if_pos hlt.le, hcons, List.getElem?_cons_succ]
    · simp
    · rw [if_neg (Nat.not_le.2 (Nat.lt_succ_of_lt hlt)), if_neg hlt.ne', if_neg (Nat.not_le.2 hlt)]

/-- After a boot every cell holds its byte of the image, or 0 after its end (R234). -/
theorem read_boot (params : Params) {image : List Byte} (hfit : image.length ≤ 256) {a : Nat} (ha : a ≤ 255) :
    ((State.resetWith params).mem.load 0 image).read a = some (image.getD a 0) := by
  have hempty : (State.resetWith params).mem.wf := Memory.wf_empty
  rw [Memory.read_load hempty (by omega), if_pos (Nat.zero_le a), read_resetWith params ha, List.getD_eq_getElem?_getD]
  cases image[a]? <;> rfl

/-- Settles O18: the boot state is the reset state with the loaded memory. -/
theorem bootLoadsImage : Obligations.BootLoadsImage := by
  refine fun params image => ⟨fun hfit => ?_, fun hlong => if_neg (Nat.not_le.2 hlong)⟩
  exact ⟨_, if_pos hfit, fun _ => read_boot params hfit, rfl, rfl⟩

/-- Settles O21: loading keeps the canonical form of memory, and the rest is the reset state. -/
theorem bootSatisfiesInvariant : Obligations.BootSatisfiesInvariant := by
  intro params image s hboot
  obtain ⟨-, rfl⟩ := State.boot_eq_some.1 hboot
  exact inv_resetWith params (Memory.wf_load Memory.wf_empty 0 image)

/-! ## Runs from the reset sequence -/

/-- What every step keeps along a run from the reset sequence: the invariant, and the image outside W while no error has
ended the run. -/
def KeepsImage (image : List Byte) (s : State) : Prop := s.Inv ∧ (s.NoError → s.HoldsImage image)

/-- While running no error has ended the run (R27). -/
theorem State.Inv.noError {s : State} (h : s.Inv) (hrun : s.run = .running) : s.NoError := by
  obtain ⟨-, -, -, hhalt, -⟩ := h
  exact .inl (hhalt.1 hrun)

/-- A running block has no error, so a step that raises none keeps the image, and a halted block keeps all. -/
theorem keepsImage_of_step (image : List Byte) (s t : State) (h : KeepsImage image s) (ht : step s = .next t) :
    KeepsImage image t := by
  obtain ⟨hinv, himage⟩ := h
  rcases hrun : s.run with _ | _
  · exact ⟨stepKeepsInvariant s t hinv ht, stepKeepsImageOutsideWritten image s t (himage (hinv.noError hrun)) ht⟩
  · obtain rfl := Host.Outcome.next.inj ((step_halted hrun).symm.trans ht)
    exact ⟨hinv, himage⟩

/-- Settles O23: `KeepsImage` holds after the reset sequence, and every step keeps it. -/
theorem unwrittenBytesKeepTheImage : Obligations.UnwrittenBytesKeepTheImage := by
  intro params image s t n hboot hrun hno
  have hstart : KeepsImage image s := by
    refine ⟨bootSatisfiesInvariant params image s hboot, fun _ => ?_⟩
    obtain ⟨hfit, rfl⟩ := State.boot_eq_some.1 hboot
    exact ⟨Memory.wf_load Memory.wf_empty 0 image, fun _ ha _ => read_boot params hfit ha⟩
  obtain ⟨-, himage⟩ := run_induction (keepsImage_of_step image) n s t hstart hrun
  obtain ⟨-, hread⟩ := himage hno
  exact hread

end Sys2Proof.Machine
end

section
/-! PROOFS. HLT and ST (R100, R112): a stop, which no frame speaks of, and one store. -/

namespace Sys2Proof.Machine

/-- Settles O31: a stop changes the run state and the halt reason alone. -/
theorem hltHalts : Obligations.HltHalts :=
  ⟨fun _ => rfl, fun s => ⟨s.stop .hlt, exec_hlt s, rfl, rfl, rfl, rfl, Frame.refl s⟩⟩

/-- A store adds its address to a frame. -/
theorem Frame.stored {regs : List RegIndex} {stored : List Nat} {s t : State} (h : Frame regs stored s t) (hwf : t.mem.wf)
    (a : Byte) (v : Nat) : Frame regs (a.toNat :: stored) s (t.stored a v) where
  regs := h.regs
  mem x hx := by
    obtain ⟨hne, hx⟩ := List.ne_and_not_mem_of_not_mem_cons hx
    rw [State.read_stored_of_ne hwf v hne, h.mem x hx]
  written x := by
    rw [State.written_stored, mem_insertAddress, h.written, List.mem_cons, or_left_comm]
  run := h.run
  halt := h.halt
  latches := h.latches
  params := h.params

/-- A stored byte is read back. -/
theorem State.read_stored_byte {s : State} (h : s.mem.wf) (a v : Byte) : (s.stored a v.toNat).mem.read a.toNat = some v := by
  rw [s.read_stored a v.toNat h, if_pos rfl, BitVec.ofNat_toNat, BitVec.setWidth_eq]

/-- Settles O35: `exec_st` is one store at the raw operand byte. -/
theorem stStoresImmediate : Obligations.StStoresImmediate := by
  refine ⟨fun _ _ _ => rfl, fun a b s hwf => ?_, fetchFaultsAbove253⟩
  exact ⟨_, exec_st s a b, State.read_stored_byte hwf a b, ((Frame.refl s).stored hwf a _).advance 3, rfl, rfl, rfl⟩

end Sys2Proof.Machine
end

section
/-! PROOFS. PRA (R122): one event and an advance of the pc by the parameter. With no advance the block stays at the PRA for ever:
a predicate that every step keeps, as it reads neither the latches nor the output. -/

namespace Sys2Proof.Machine

/-- An advance by no bytes changes nothing. -/
theorem State.advance_zero (s : State) : s.advance 0 = s := by
  simp [State.advance]

/-- Settles O37: `exec_pra` sends the event and advances the pc by the parameter's bytes. -/
theorem praEmitsCharacter : Obligations.PraEmitsCharacter := by
  refine ⟨fun _ _ => rfl, fun i s => ?_, checksA_of_roles (fun _ => rfl) (fun _ => rfl)⟩
  refine ⟨_, exec_pra s i, rfl, ((Frame.refl s).emit _).advance _, rfl, fun hstay => ?_, fun hadvance => ?_⟩
  · rw [hstay, praAdvanceBytes, State.advance_zero, State.pc_emit]
  · rw [hadvance]
    rfl

/-- A running block with `PRA_ADVANCE` = 0 whose pc is at a PRA of the register `i`, its two bytes not in W. The latches and
the output are not read. -/
structure AtStayingPra (op b : Byte) (i : RegIndex) (s : State) : Prop where
  run : s.run = .running
  stay : s.params.praAdvance = .stay
  lookup : s.params.opcodeMap.lookup op = some .pra
  byte0 : s.mem.read s.pc.toNat = some op
  byte1 : s.mem.read (s.pc.toNat + 1) = some (regByte i)
  byte2 : s.mem.read (s.pc.toNat + 2) = some b
  fresh : ∀ k < Mnemonic.pra.width, s.pc.toNat + k ∉ s.written

/-- Whatever the latches hold and the output is, the block is still at the PRA. -/
theorem AtStayingPra.latched_emit {op b : Byte} {i : RegIndex} {s : State} (h : AtStayingPra op b i s) (x y z : Byte)
    (e : OutEvent) : AtStayingPra op b i ((s.latched x y z).emit e) where
  run := h.run
  stay := h.stay
  lookup := h.lookup
  byte0 := h.byte0
  byte1 := h.byte1
  byte2 := h.byte2
  fresh := h.fresh

/-- A step at the PRA loads the latches and sends the event. -/
theorem AtStayingPra.step_eq {op b : Byte} {i : RegIndex} {s : State} (h : AtStayingPra op b i s) :
    step s = .next ((s.latched op (regByte i) b).emit (.char (s.reg i))) :=
  calc step s = issue (s.latched op (regByte i) b) := step_of_reads h.run h.byte0 h.byte1 h.byte2
    _ = exec (.pra (regByte i)) (s.latched op (regByte i) b) :=
        issue_of_lookup (s := s.latched op (regByte i) b) h.lookup h.fresh
    _ = .next (((s.latched op (regByte i) b).emit (.char (s.reg i))).advance (praAdvanceBytes s.params.praAdvance)) :=
        exec_pra _ i
    _ = .next ((s.latched op (regByte i) b).emit (.char (s.reg i))) := by
        rw [h.stay, praAdvanceBytes, State.advance_zero]

/-- After every number of steps the block runs at the same pc and has sent as many events. -/
theorem AtStayingPra.run_eq {op b : Byte} {i : RegIndex} (n : Nat) {s : State} (h : AtStayingPra op b i s) :
    ∃ t, Host.Core.run Sys2Proof.core n s = .next t ∧ t.run = .running ∧ t.pc = s.pc ∧
      t.out = s.out ++ List.replicate n (.char (s.reg i)) := by
  induction n generalizing s with
  | zero => exact ⟨s, rfl, h.run, rfl, (List.append_nil _).symm⟩
  | succ n ih =>
    obtain ⟨t, hrun, hrunning, hpc, hout⟩ := ih (h.latched_emit op (regByte i) b (.char (s.reg i)))
    refine ⟨t, (run_succ_of_next h.step_eq n).trans hrun, hrunning, hpc, ?_⟩
    rw [hout, State.out_emit, List.append_assoc]
    rfl

/-- Settles O38: `AtStayingPra.run_eq`, whose `fresh` is the two hypotheses on W, PRA being two bytes wide. -/
theorem praWithoutAdvanceNeverEnds : Obligations.PraWithoutAdvanceNeverEnds := by
  intro s op b i n hrun hstay hlookup h0 h1 h2 hw0 hw1
  have hfresh : ∀ k < Mnemonic.pra.width, s.pc.toNat + k ∉ s.written
    | 0, _ => hw0
    | 1, _ => hw1
  exact AtStayingPra.run_eq n ⟨hrun, hstay, hlookup, h0, h1, h2, hfresh⟩

end Sys2Proof.Machine
end

section
/-! PROOFS. What the ports show (R27, R33 to R35, R120): the digits of an event, the status codes and the trace. -/

namespace Sys2Proof.Machine

/-! ## The console (R120) -/

/-- The decimal digits of a byte: none above 9, they read as the byte, and a leading 0 is that of 0 itself. -/
theorem decimalDigits_spec (v : Byte) :
    (∀ d ∈ decimalDigits v, d < 10) ∧ Nat.ofDigits 10 (decimalDigits v).reverse = v.toNat ∧ decimalDigits v ≠ [] ∧
      ((decimalDigits v).head? = some 0 → v = 0 ∧ decimalDigits v = [0]) := by
  have hv : v.toNat < 256 := v.isLt
  simp only [decimalDigits]
  split_ifs with h1 h2
  · refine ⟨by simpa using h1, by simp, nofun, fun h => ?_⟩
    have hzero : v.toNat = 0 := by simpa using h
    exact ⟨BitVec.eq_of_toNat_eq hzero, by rw [hzero]⟩
  all_goals
    refine ⟨by simp; omega, by simp [Nat.ofDigits_cons]; omega, nofun, fun h => ?_⟩
    have hlead := Option.some.inj h
    omega

/-- Settles O39: the digits of an OutDec event are `decimalDigits`. -/
theorem consoleShowsEvents : Obligations.ConsoleShowsEvents := fun v =>
  ⟨rfl, decimalDigits v, rfl, decimalDigits_spec v⟩

/-! ## The status and trace ports (R27, R33, R34, R35) -/

/-- Settles O16: the status port is a view, and each code is that of its reason by definition. -/
theorem statusPortCodes : Obligations.StatusPortCodes := fun _ _ _ _ _ =>
  ⟨rfl, rfl, rfl, rfl, rfl, rfl, rfl, rfl, rfl⟩

/-- Up to address 255 the trace shows the memory byte (R35). -/
theorem State.read_eq_traceByte (s : State) (draw : Nat) {a : Nat} (ha : a ≤ 255) :
    s.mem.read a = some (s.traceByte draw a) := by
  rw [State.traceByte, s.mem.read_of_le ha, Option.getD_some]

/-- Settles O57: the trace reads the pc, the registers and memory, and none of the latches. -/
theorem tracePortShowsMemory : Obligations.TracePortShowsMemory := fun s draw =>
  ⟨rfl, rfl, s.read_eq_traceByte draw, s.read_eq_traceByte draw, s.read_eq_traceByte draw, fun _ _ _ => rfl⟩

end Sys2Proof.Machine
end

section
/-! PROOFS. The stack (R130, R131, R140, R141): PUSH and CALL store at the decremented SP, POP and RET read at SP and
increment it, both modulo 256 (D4), in the order the rules write them (D26). -/

namespace Sys2Proof.Machine

/-- A register read after the decrement of SP (D26). -/
theorem State.reg_decSp (s : State) (k : RegIndex) :
    s.decSp.reg k = if k = spIndex then s.reg spIndex - 1 else s.reg k :=
  s.reg_setReg spIndex k _

/-- A frame of some registers is one of more. -/
theorem Frame.mono {regs regs' : List RegIndex} {stored : List Nat} {s t : State} (h : Frame regs stored s t)
    (hsub : regs ⊆ regs') : Frame regs' stored s t where
  regs k hk := h.regs k fun hmem => hk (hsub hmem)
  mem := h.mem
  written := h.written
  run := h.run
  halt := h.halt
  latches := h.latches
  params := h.params

/-- The decrement of SP and a store at the new SP change that register and that cell. -/
theorem frame_decSp_stored {s : State} (hwf : s.mem.wf) (v : Nat) :
    Frame [spIndex] [(s.decSp.reg spIndex).toNat] s (s.decSp.stored (s.decSp.reg spIndex) v) :=
  ((Frame.refl s).setReg spIndex _).stored hwf _ v

/-- Settles O40: `exec_push` stores the byte of the register in the state after the decrement. -/
theorem pushStores : Obligations.PushStores := by
  refine ⟨fun _ _ => rfl, fun i s hwf => ?_, checksA_of_roles (fun _ => rfl) (fun _ => rfl)⟩
  refine ⟨_, exec_push s i, s.reg_decSp_sp, ?_, (frame_decSp_stored hwf _).advance 2, rfl, rfl, rfl⟩
  rw [← s.reg_decSp i]
  exact State.read_stored_byte (s := s.decSp) hwf _ _

/-- Settles O41: `exec_pop` increments SP in the state that has the byte in x[a]. -/
theorem popLoads : Obligations.PopLoads := by
  refine ⟨fun _ _ => rfl, fun i s => ?_, checksA_of_roles (fun _ => rfl) (fun _ => rfl)⟩
  refine ⟨_, s.mem.read_byte (s.reg spIndex), _, exec_pop s i, ?_, fun hne => ?_, ?_, rfl, rfl, rfl⟩
  · by_cases hi : i = spIndex
    · rw [if_pos hi, hi, State.reg_advance, State.reg_incSp_sp, State.reg_setReg_self]
    · rw [if_neg hi, State.reg_advance, State.reg_incSp_of_ne _ hi, State.reg_setReg_self]
  · rw [State.reg_advance, State.reg_incSp_sp, s.reg_setReg_of_ne _ hne.symm]
  · exact ((((Frame.refl s).setReg i _).setReg spIndex _).advance 2).mono (by simp)

/-- Settles O42: `exec_call` stores p + 2 and reads the target in the state after the decrement. -/
theorem callPushesReturnAddress : Obligations.CallPushesReturnAddress := by
  refine ⟨fun _ _ => rfl, fun i s hwf => ?_, checksA_of_roles (fun _ => rfl) (fun _ => rfl)⟩
  refine ⟨_, exec_call s i, s.reg_decSp_sp, ?_, ?_, (frame_decSp_stored hwf _).jump _, rfl, rfl⟩
  · exact (s.decSp.read_stored _ _ hwf _).trans (if_pos rfl)
  · rw [← s.reg_decSp i]
    rfl

/-- Settles O43: an address held in x[7] is inside memory, and `exec_ret` jumps to the byte there. -/
theorem retPopsTarget : Obligations.RetPopsTarget := by
  refine ⟨fun _ => rfl, fun s => ⟨_, s.mem.read_byte (s.reg spIndex), _, exec_ret s, rfl, s.reg_incSp_sp, ?_, rfl, rfl⟩⟩
  exact ((Frame.refl s).setReg spIndex _).jump _

/-- The return address of a CALL that a fetch can read fits in the pushed byte. -/
theorem setWidth_returnAddress {pc : PcWord} (hpc : pc.toNat ≤ 253) : (BitVec.ofNat 8 (pc.toNat + 2)).setWidth 9 = pc + 2 := by
  refine BitVec.eq_of_toNat_eq ?_
  rw [BitVec.toNat_setWidth_of_le (by decide), BitVec.toNat_ofNat, BitVec.toNat_add]
  simp
  omega

/-- Settles O44: RET finds the byte that CALL pushed, and adds back the 1 that CALL took from SP. -/
theorem callThenRetReturns : Obligations.CallThenRetReturns := by
  intro i s t u hwf hpc hcall husp humem
  obtain ⟨-, hcalls, -⟩ := callPushesReturnAddress
  obtain ⟨t', ht', htsp, htmem, -⟩ := hcalls i s hwf
  obtain rfl : t' = t := Host.Outcome.next.inj (ht'.symm.trans hcall)
  obtain ⟨-, hrets⟩ := retPopsTarget
  obtain ⟨byte, hbyte, v, hv, hvpc, hvsp, -⟩ := hrets u
  rw [State.reg_decSp_sp, ← htsp] at htmem
  rw [husp, humem, htmem] at hbyte
  obtain rfl := Option.some.inj hbyte
  refine ⟨v, hv, hvpc.trans (setWidth_returnAddress hpc), ?_⟩
  rw [hvsp, husp, htsp, BitVec.sub_add_cancel]

end Sys2Proof.Machine
end

section
/-! PROOFS. The conditional jumps (R143 to R148): one shape, the condition over FL being the form's own; after a CMP the
three flags are the three orders (R170). -/

namespace Sys2Proof.Machine

/-- A form that jumps or advances by 2 on a condition over FL is a conditional jump. -/
theorem conditionalJump_of_exec {mk : Byte → Instr} {condition : Byte → Bool}
    (hexec : ∀ s i, exec (mk (regByte i)) s = .next (if condition s.fl then s.jump (s.reg i) else s.advance 2)) :
    ConditionalJump mk condition := by
  intro i s
  refine ⟨_, hexec s i, ?_⟩
  cases condition s.fl with
  | false => exact ⟨rfl, (Frame.refl s).advance 2, rfl, rfl⟩
  | true => exact ⟨rfl, (Frame.refl s).jump _, rfl, rfl⟩

/-- Settles O46: each condition is read from the bits of FL, and the operand checks are those of the register role. -/
theorem conditionalJumpsFollowFlags : Obligations.ConditionalJumpsFollowFlags :=
  ⟨fun _ _ => rfl, fun _ _ => rfl, fun _ _ => rfl, fun _ _ => rfl, fun _ _ => rfl, fun _ _ => rfl,
    conditionalJump_of_exec exec_jeq, conditionalJump_of_exec exec_jne, conditionalJump_of_exec exec_jgt,
    conditionalJump_of_exec exec_jlt, conditionalJump_of_exec exec_jge, conditionalJump_of_exec exec_jle,
    checksA_of_roles (fun _ => rfl) (fun _ => rfl), checksA_of_roles (fun _ => rfl) (fun _ => rfl),
    checksA_of_roles (fun _ => rfl) (fun _ => rfl), checksA_of_roles (fun _ => rfl) (fun _ => rfl),
    checksA_of_roles (fun _ => rfl) (fun _ => rfl), checksA_of_roles (fun _ => rfl) (fun _ => rfl)⟩

/-- The three flags that CMP writes are the three orders (R170). -/
theorem getLsbD_compareFlags (x y : Byte) :
    (compareFlags x y).getLsbD 0 = decide (x.toNat = y.toNat) ∧
    (compareFlags x y).getLsbD 1 = decide (x.toNat > y.toNat) ∧
    (compareFlags x y).getLsbD 2 = decide (x.toNat < y.toNat) := by
  rcases Nat.lt_trichotomy x.toNat y.toNat with h | h | h
  · rw [compareFlags_of_lt h]
    simp [h, h.ne, h.le]
  · rw [compareFlags_of_eq h]
    simp [h]
  · rw [compareFlags_of_gt h]
    simp [h, h.ne', h.le]

/-- A conditional jump after a CMP is taken exactly when its condition holds of the flags written. -/
theorem completes_conditionalJump_of_cmp {mk : Byte → Instr} {condition : Byte → Bool} (hjump : ConditionalJump mk condition)
    {i j : RegIndex} {s t : State} (hcmp : exec (.cmp (regByte i) (regByte j)) s = .next t) (k : RegIndex) {P : Prop}
    [Decidable P] (hP : condition (compareFlags (s.reg i) (s.reg j)) = decide P) :
    Completes (mk (regByte k)) t fun u => u.pc = if P then (s.reg k).setWidth 9 else s.pc + 5 := by
  obtain rfl := Host.Outcome.next.inj ((exec_cmp s i j).symm.trans hcmp)
  obtain ⟨u, hu, hpc, -⟩ := hjump k ((s.setFl (compareFlags (s.reg i) (s.reg j))).advance 3)
  refine ⟨u, hu, hpc.trans ?_⟩
  simp [hP, BitVec.add_assoc]

/-- Settles O47: each jump's condition on the flags CMP writes is its order of the two registers. -/
theorem cmpThenJumpFollowsOrder : Obligations.CmpThenJumpFollowsOrder := by
  intro i j k s t hcmp
  obtain ⟨-, -, -, -, -, -, hjeq, hjne, hjgt, hjlt, hjge, hjle, -⟩ := conditionalJumpsFollowFlags
  obtain ⟨hE, hG, hL⟩ := getLsbD_compareFlags (s.reg i) (s.reg j)
  refine ⟨completes_conditionalJump_of_cmp hjeq hcmp k hE, completes_conditionalJump_of_cmp hjne hcmp k ?_,
    completes_conditionalJump_of_cmp hjgt hcmp k hG, completes_conditionalJump_of_cmp hjlt hcmp k hL,
    completes_conditionalJump_of_cmp hjge hcmp k ?_, completes_conditionalJump_of_cmp hjle hcmp k ?_⟩
  · rw [hE, decide_not]
  · rw [hE, hG, ← Bool.decide_or, decide_eq_decide]
    omega
  · rw [hE, hL, ← Bool.decide_or, decide_eq_decide]
    omega

end Sys2Proof.Machine
end

section
/-! PROOFS. The ALU instructions with an error, a count or an ignored byte (R163, R164, R168, R169, R171 to R173): DIV and
MOD, the shifts, INC, DEC and NOT. -/

namespace Sys2Proof.Machine

/-! ## DIV and MOD -/

/-- Settles O49: a quotient of bytes needs no reduction, and `exec_div_zero` raises. -/
theorem divDividesOrRaises : Obligations.DivDividesOrRaises := by
  refine ⟨fun _ _ _ => rfl, fun i j s hy => ?_, fun i j s hy => ?_,
    checksBoth_of_roles (fun _ _ => rfl) (fun _ _ => rfl), fetchFaultsAbove253⟩
  · obtain ⟨t, ht, hreg, hframe⟩ := completes_of_exec_setReg (exec_div s i j hy)
    exact ⟨t, ht, hreg ▸ toNat_ofNat_div _ _, hframe⟩
  · rw [exec_div_zero s i j hy]
    exact raises_raise _ s

/-- Settles O50: a remainder of bytes needs no reduction, and `exec_mod_zero` raises. -/
theorem modReducesOrRaises : Obligations.ModReducesOrRaises := by
  refine ⟨fun _ _ _ => rfl, fun i j s hy => ?_, fun i j s hy => ?_,
    checksBoth_of_roles (fun _ _ => rfl) (fun _ _ => rfl)⟩
  · obtain ⟨t, ht, hreg, hframe⟩ := completes_of_exec_setReg (exec_mod s i j hy)
    exact ⟨t, ht, hreg ▸ toNat_ofNat_mod _ _, hframe⟩
  · rw [exec_mod_zero s i j hy]
    exact raises_raise _ s

/-! ## SHL and SHR (R168, R169) -/

/-- The product by a power of two, reduced to a byte, is the shift left. -/
theorem ofNat_mul_two_pow (x : Byte) (n : Nat) : BitVec.ofNat 8 (x.toNat * 2 ^ n) = x <<< n :=
  BitVec.eq_of_toNat_eq (by simp [Nat.shiftLeft_eq])

/-- The quotient by a power of two is the logical shift right. -/
theorem ofNat_div_two_pow (x : Byte) (n : Nat) : BitVec.ofNat 8 (x.toNat / 2 ^ n) = x >>> n := by
  rw [← Nat.shiftRight_eq_div_pow, ← BitVec.toNat_ushiftRight, BitVec.ofNat_toNat, BitVec.setWidth_eq]

/-- Settles O53: the two results are the shifts of bit vectors by the full count. -/
theorem shiftsUseFullCount : Obligations.ShiftsUseFullCount := by
  refine ⟨fun _ _ _ => rfl, fun _ _ _ => rfl, fun i j s => ?_, fun i j s => ?_,
    checksBoth_of_roles (fun _ _ => rfl) (fun _ _ => rfl), checksBoth_of_roles (fun _ _ => rfl) (fun _ _ => rfl)⟩
  · obtain ⟨t, ht, hreg, hframe⟩ := completes_of_exec_setReg (exec_shl s i j)
    rw [ofNat_mul_two_pow] at hreg
    refine ⟨t, ht, fun n hn => ?_, fun hcount => ?_, hframe⟩
    · rw [hreg, BitVec.getLsbD_shiftLeft, decide_eq_true hn, Bool.true_and, ← decide_not]
      simp only [Nat.not_lt]
    · exact hreg.trans (BitVec.shiftLeft_eq_zero hcount)
  · obtain ⟨t, ht, hreg, hframe⟩ := completes_of_exec_setReg (exec_shr s i j)
    rw [ofNat_div_two_pow] at hreg
    refine ⟨t, ht, fun n _ => ?_, fun hcount => ?_, hframe⟩
    · rw [hreg, BitVec.getLsbD_ushiftRight, Nat.add_comm]
    · exact hreg.trans (BitVec.ushiftRight_eq_zero hcount)

/-! ## INC, DEC and NOT (R171 to R173) -/

/-- A unary instruction that writes `v` of its register has the result `f` when `v` is `f` modulo 256. -/
theorem unaryResult_of_exec {mk : Byte → Byte → Instr} {f : Int → Int} (v : Byte → Byte)
    (hexec : ∀ s i b, exec (mk (regByte i) b) s = .next ((s.setReg i (v (s.reg i))).advance 3))
    (hv : ∀ x, ((v x).toNat : Int) = f x.toNat % 256) : UnaryResult mk f := by
  intro i b s
  obtain ⟨t, ht, hreg, hframe⟩ := completes_of_exec_setReg (hexec s i b)
  exact ⟨t, ht, hreg ▸ hv (s.reg i), hframe⟩

/-- Settles O55: the byte each writes is its exact result over the integers, reduced modulo 256. -/
theorem incDecWrap : Obligations.IncDecWrap := by
  have hinc : UnaryResult .inc fun x => x + 1 :=
    unaryResult_of_exec (fun x => BitVec.ofNat 8 (x.toNat + 1)) exec_inc fun _ => toNat_ofNat_byte _
  have hdec : UnaryResult .dec fun x => x - 1 :=
    unaryResult_of_exec (fun x => BitVec.ofInt 8 (x.toNat - 1)) exec_dec fun _ => toNat_ofInt_byte _
  exact ⟨fun _ _ _ => rfl, fun _ _ _ => rfl, hinc, hdec, checksFirst_of_roles (fun _ _ => rfl) (fun _ _ => rfl),
    checksFirst_of_roles (fun _ _ => rfl) (fun _ _ => rfl)⟩

/-- Settles O56: `exec_not` only advances the pc. -/
theorem notHasNoEffect : Obligations.NotHasNoEffect :=
  ⟨fun _ _ _ => rfl, fun i b s => ⟨_, exec_not s i b, (Frame.refl s).advance 3, rfl, rfl, rfl⟩,
    checksFirst_of_roles (fun _ _ => rfl) (fun _ _ => rfl)⟩

/-! ## Ignored bytes (R72) -/

/-- A form whose a is a register and whose equation does not read b does the same for every b: a bad a raises first. -/
theorem exec_eq_of_ignored {mk : Byte → Byte → Instr} (hops : ∀ a b, (mk a b).operands = [a, b])
    (hroles : ∀ a b, ((mk a b).mnemonic.roles.map Role.isReg).head? = some true) {s : State}
    (hexec : ∀ i b b', exec (mk (regByte i) b) s = exec (mk (regByte i) b') s) (a b b' : Byte) :
    exec (mk a b) s = exec (mk a b') s := by
  by_cases ha : 7 < a.toNat
  · rw [exec_bad_first s ha (by rw [hops]; rfl) (hroles a b), exec_bad_first s ha (by rw [hops]; rfl) (hroles a b')]
  · obtain ⟨i, rfl⟩ := exists_eq_regByte (Nat.not_lt.1 ha)
    exact hexec i b b'

/-- Settles O5: at execution the equations of INC, DEC and NOT do not read b; at decode an instruction is built without the
bytes its format does not have. -/
theorem ignoredBytesNeverMatter : Obligations.IgnoredBytesNeverMatter := by
  refine ⟨fun a b b' s => ⟨?_, ?_, ?_⟩, fun map op a b a' b' m hm => ⟨fun hf => ?_, fun hf => ?_⟩⟩
  · exact exec_eq_of_ignored (mk := .inc) (fun _ _ => rfl) (fun _ _ => rfl)
      (fun i b b' => (exec_inc s i b).trans (exec_inc s i b').symm) a b b'
  · exact exec_eq_of_ignored (mk := .dec) (fun _ _ => rfl) (fun _ _ => rfl)
      (fun i b b' => (exec_dec s i b).trans (exec_dec s i b').symm) a b b'
  · exact exec_eq_of_ignored (mk := .not) (fun _ _ => rfl) (fun _ _ => rfl)
      (fun i b b' => (exec_not s i b).trans (exec_not s i b').symm) a b b'
  · rw [OpcodeMap.decodeLatched, OpcodeMap.decodeLatched, hm, Option.map_some, Option.map_some, m.build_f1 hf a b a' b']
  · rw [OpcodeMap.decodeLatched, OpcodeMap.decodeLatched, hm, Option.map_some, Option.map_some, m.build_f2 hf a b b']

end Sys2Proof.Machine
end
